-- ==== Sys2Proof/Word.lean ====
section
/-! DEFINITION. Words and bytes, and their plainest shapes (spec 00_scope.md rule R4: DATA_WIDTH 32,
DIGIT_WIDTH 8, OFFSET_WIDTH 18). -/

namespace Sys2Proof

/-- A register or command word, 32 bits (R4, DATA_WIDTH). -/
abbrev Word := BitVec 32

/-- A digit or buffer byte, 8 bits (R4, DIGIT_WIDTH). -/
abbrev Byte := BitVec 8

/-- A byte offset from the block's base address, 18 bits (R4, OFFSET_WIDTH). -/
abbrev Offset := BitVec 18

end Sys2Proof
end

