-- ==== Sys2Proof/Syntax.lean ====
section
/-! DEFINITION. The commands of the block (30_encoding.md rules R60, R61) as syntax: one constructor for each row
of the opcode table, and the fields of the one command format. A command has no operand fields (R60), so no
constructor has an argument. -/

namespace Sys2Proof

/-- The six commands of R61. A word that is none of theirs is an illegal command (R62); it is no row of the table
and no constructor: the engine completes it by R73. -/
inductive Instr where
  /-- NOP, R72. -/
  | nop
  /-- CONV, radix conversion, R79. -/
  | conv
  /-- SENC, safe-encode a 32-bit value, R96. -/
  | senc
  /-- SDEC, safe-decode 4 bytes, R97. -/
  | sdec
  /-- EENC, escape-encode a payload, R114. -/
  | eenc
  /-- EDEC, escape-decode a payload, R115. -/
  | edec
  deriving DecidableEq, Repr

/-- A command word split into the two fields of the one format CMD32 (R60). -/
structure CommandFields where
  /-- Bits 7:0: selects the command. -/
  opcode : BitVec 8
  /-- Bits 31:8: reserved, must be 0. -/
  rsv : BitVec 24
  deriving DecidableEq, Repr

end Sys2Proof
end

