-- ==== Sys2Proof/WellFormed.lean ====
section
/-! DEFINITION. When a term of the command syntax is well formed (30_encoding.md rules R60 to R62).
An `Instr` carries no operand (R60), so each one is well formed; the checks that can fail are those on the raw
fields of a command word. -/

namespace Sys2Proof

/-- The reserved field is 0 (R60: "reserved; must be 0"). -/
def CommandFields.rsvZero (c : CommandFields) : Bool := c.rsv == 0

/-- The opcode is one of the six that R61 assigns; 0x06 to 0xFF are unassigned (R62). -/
def CommandFields.opcodeAssigned (c : CommandFields) : Bool := c.opcode.toNat < 6

/-- The fields of a command of the table, by R62 the words that are not illegal. -/
def CommandFields.wf (c : CommandFields) : Bool := c.rsvZero && c.opcodeAssigned

/-- Every instruction is well formed: none has an operand field (R60, R63). -/
def Instr.wf : Instr → Bool
  | .nop => true
  | .conv => true
  | .senc => true
  | .sdec => true
  | .eenc => true
  | .edec => true

end Sys2Proof
end

