-- ==== Sys2Proof/Decode.lean ====
section
/-! DEFINITION. Decoding a command word, total on every 32-bit word, and encoding a command
(30_encoding.md rules R60 to R63). No mode bit changes how a word is decoded (R63). -/

namespace Sys2Proof

/-- The fields of a command word: OPCODE in bits 7:0, RSV in bits 31:8 (R60). -/
def CommandFields.ofWord (w : Word) : CommandFields :=
  { opcode := w.extractLsb' 0 8, rsv := w.extractLsb' 8 24 }

/-- The word with the given fields (R60). -/
def CommandFields.toWord (c : CommandFields) : Word := c.rsv ++ c.opcode

/-- Why a word is an illegal command (R62). -/
inductive IllegalCommand where
  /-- Some bit of RSV is set, whatever the opcode. -/
  | reservedBitsSet
  /-- RSV is 0 and the opcode is in 0x06 to 0xFF. -/
  | opcodeUnassigned
  deriving DecidableEq, Repr

/-- What a command word is: a command of the table, or illegal by name. -/
inductive Decoded where
  | command (i : Instr)
  | illegal (r : IllegalCommand)
  deriving DecidableEq, Repr

/-- The opcode map of R61. -/
def opcodeInstr (opcode : Nat) : Option Instr :=
  match opcode with
  | 0 => some .nop
  | 1 => some .conv
  | 2 => some .senc
  | 3 => some .sdec
  | 4 => some .eenc
  | 5 => some .edec
  | _ => none

/-- The decoder: a command is selected by the whole word (R61), and every other word is illegal (R62). -/
def decode (w : Word) : Decoded :=
  let c := CommandFields.ofWord w
  if c.rsv = 0 then
    match opcodeInstr c.opcode.toNat with
    | some i => .command i
    | none => .illegal .opcodeUnassigned
  else .illegal .reservedBitsSet

/-- The opcode of a command, written from the table of R61. -/
def Instr.opcode : Instr → BitVec 8
  | .nop => 0x00
  | .conv => 0x01
  | .senc => 0x02
  | .sdec => 0x03
  | .eenc => 0x04
  | .edec => 0x05

/-- The encoder: the command's opcode with RSV = 0 (R60, R61). -/
def encode (i : Instr) : Word := CommandFields.toWord { opcode := i.opcode, rsv := 0 }

/-- The instruction the decoder reads from an opcode-table word of `nbits` bits: a command is one 32-bit word
(R60), the bits from `nbits` on are 0, and a number that needs more than 32 bits is no command word (entry 10). -/
def decodeTableWord (nbits w : Nat) : Option Instr :=
  let v := w % 2 ^ nbits
  if v < 2 ^ 32 then
    match decode (BitVec.ofNat 32 v) with
    | .command i => some i
    | .illegal _ => none
  else none

end Sys2Proof
end

