-- ==== Sys2Proof/Config.lean ====
section
/-! DEFINITION. What an implementation fixes (00_scope.md rule R4) and the free values the spec leaves open
(93_implementation_defined.md section 1). The free values are opaque constants: no proof can see what they are,
so a claim is true whatever they are. -/

namespace Sys2Proof

/-- The block's parameters (R4). IN_CAP is any multiple of 4 in [4, 65536]: it is held as its number of 4-byte
words less one, so that every value of the type is a legal parameter (entry 2). ID_VALUE is a constant
(`Machine.idValue`); BUS_PROTOCOL and RESET_POLARITY are open, and no rule depends on them (R153). -/
structure Config where
  inCapWordsLessOne : Fin 16384
  deriving DecidableEq, Repr, Inhabited

/-- IN_CAP, the capacity of the IN buffer in bytes (R4). -/
def Config.inCap (c : Config) : Nat := 4 * (c.inCapWordsLessOne.val + 1)

/-- OUT_CAP, exactly 2 × IN_CAP (R4). -/
def Config.outCap (c : Config) : Nat := 2 * c.inCap

/-- The default parameters: IN_CAP = 65536 (R4). -/
def Config.default : Config := { inCapWordsLessOne := 16383 }

/-- FREE VALUE: byte `i` of the buffer filled by draw number `d` (U1, U2, U4: R68, R152, R35). Entries 3 and 4. -/
opaque Config.freeByte : Nat → Nat → Byte

/-- FREE VALUE: what the read that takes draw number `d` returns while busy (U3: R70). Entries 4 and 5. -/
opaque Config.freeData : Nat → Word

end Sys2Proof
end

