-- ==== Sys2Proof/Machine/State.lean ====
section
/-! DEFINITION. The state of the block (10_state.md rules R20 to R41), the events that reach it from outside
(20_memory.md section 1, 70_reset_and_hazards.md R149, 60_exceptions.md R142), and the state after reset (R41). -/

namespace Sys2Proof.Machine

/-- CTRL.VARIANT (R22, R2): V0 is "3-reserved", R = 254; V1 is "1-reserved", R = 255. -/
inductive Variant where
  | v0
  | v1
  deriving DecidableEq, Repr, Inhabited

/-- The values STATUS.ERRCODE takes (60_exceptions.md R130). Values 9 to 15 are reserved and never written (X5), so
they have no constructor. -/
inductive ErrCode where
  | ok
  | invalidRadix
  | invalidDigit
  | malformedPayload
  | malformedValue
  | valueOutOfRange
  | outputOverflow
  | badLength
  | illegalCommand
  deriving DecidableEq, Repr, Inhabited

/-- What the reset input and the power supply let the block do (R149, R142). -/
inductive Phase where
  /-- Powered, reset released: accesses and engine steps happen. -/
  | ready
  /-- The reset input is asserted: every piece of state is held at its reset value (R149). -/
  | inReset
  /-- Power was lost and no hard reset has come since (R142, U9). -/
  | powerLost
  deriving DecidableEq, Repr, Inhabited

/-- The size of a bus access: 1, 2 or 4 bytes (20_memory.md section 1). -/
inductive AccessSize where
  | one
  | two
  | four
  deriving DecidableEq, Repr

/-- The data of a bus access, `size × 8` bits (20_memory.md section 1). -/
inductive BusData where
  | byte (b : BitVec 8)
  | half (h : BitVec 16)
  | word (w : BitVec 32)
  deriving DecidableEq, Repr

/-- How the port answers an access: data, done or a bus error (20_memory.md section 1, R45). -/
inductive BusResponse where
  | data (d : BusData)
  | done
  | error
  deriving DecidableEq, Repr

/-- An event still to come. The order of the events is the schedule the spec leaves open (R50, R67; U6, U7): the
engine's turn is an event among the others (entry 1). -/
inductive Input where
  /-- The bus transaction Read(off, size). -/
  | read (off : Offset) (size : AccessSize)
  /-- The bus transaction Write(off, size, data), the size being that of the data. -/
  | write (off : Offset) (data : BusData)
  /-- The engine may take its step now (R67). -/
  | engine
  /-- The reset input is asserted (R149). -/
  | assertReset
  /-- The reset input is released (R149). -/
  | releaseReset
  /-- Power is lost (R142). -/
  | powerLoss
  deriving DecidableEq, Repr

/-- A byte buffer. `cells` lists the bytes that were written, by index, in strictly rising order (`Memory.wf`); a
byte that is not listed is the one that draw number `draw` put there (R152, U1, U2, U4; entry 3). -/
structure Memory where
  draw : Nat
  cells : List Host.Cell
  deriving DecidableEq, Repr, Inhabited

/-- The block's state: the registers of 10_state.md section 2 that have storage, the buffers IN and OUT, the
pending-command latch PEND, the reset and power condition; the parameter `cfg`; and the model's own fields
`draws`, `inputs` and `response`. STATUS.BUSY, STATUS.ERR and IRQ are computed (`State.busy`, `State.statusWord`,
`State.irq`; entry 6). -/
structure State where
  /-- The parameters IN_CAP and OUT_CAP (R4, R32, R33); no step changes them (entry 2). -/
  cfg : Config
  /-- CTRL.VARIANT (R22). -/
  variant : Variant
  /-- CTRL.IRQ_EN (R22). -/
  irqEn : Bool
  /-- STATUS.DONE (R24). -/
  done : Bool
  /-- STATUS.WERR (R24). -/
  werr : Bool
  /-- STATUS.ERRCODE (R24). -/
  errCode : ErrCode
  /-- FROM_BASE[8:0] (R25). -/
  fromBase : BitVec 9
  /-- TO_BASE[8:0] (R26). -/
  toBase : BitVec 9
  /-- IN_LEN[16:0] (R27). -/
  inLen : BitVec 17
  /-- OUT_LEN[17:0] (R28). -/
  outLen : BitVec 18
  /-- VALUE (R29). -/
  value : Word
  /-- SAFE (R30). -/
  safe : Word
  /-- ERR_POS[16:0] (R31). -/
  errPos : BitVec 17
  /-- The IN buffer (R34). -/
  inBuf : Memory
  /-- The OUT buffer (R35). -/
  outBuf : Memory
  /-- PEND (R36): the issued word while the valid bit is set. -/
  pend : Option Word
  /-- Whether reset is asserted or power was lost (R149, R142). -/
  phase : Phase
  /-- The model's own: the number of the next free value to draw (entry 4). -/
  draws : Nat
  /-- The model's own: the events still to come, in order (entry 1). -/
  inputs : List Input
  /-- The model's own: the port's answer in the step just taken (entry 7). -/
  response : Option BusResponse
  deriving DecidableEq, Repr, Inhabited

/-- FREE VALUE: what the registers, flags and PEND hold after the power loss that takes draw number `d` ("what survives
a power loss is not specified", R142; U9: any value). Entry 9. -/
opaque State.afterPowerLoss : Nat → State

/-- No step of the block ends in a fault: "No behaviour of the block is `stuck`. Every command completes, and every
access gets a response" (93_implementation_defined.md section 3). A bus error is a response (R45), an error of a
command is a code (R132), and both are next states. -/
inductive Fault where
  deriving DecidableEq, Repr

/-- What the model does not admit. -/
inductive Refusal where
  /-- Raised by `exec` for an instruction that has no meaning yet. Safe. -/
  | notModelled (mnemonic : String)
  /-- Raised by `busAccess` when the host accesses the bus while reset is asserted: "bus accesses during reset are
  not defined and a model must not issue any" (R149, U8). Safe. -/
  | accessDuringReset
  /-- Raised by `busAccess` when the host accesses the bus after a power loss and before a hard reset: "refuse any
  use before a hard reset" (U9, R142). Safe. -/
  | accessAfterPowerLoss
  deriving DecidableEq, Repr

/-- The machine right after reset (R41), with the default IN_CAP (R4) and no event to come. IN and OUT hold the bytes
of draws 0 and 1 (entry 4). -/
def State.reset : State :=
  { cfg := Config.default
    variant := .v0
    irqEn := false
    done := false
    werr := false
    errCode := .ok
    fromBase := 256
    toBase := 254
    inLen := 0
    outLen := 0
    value := 0
    safe := 0
    errPos := 0
    inBuf := { draw := 0, cells := [] }
    outBuf := { draw := 1, cells := [] }
    pend := none
    phase := .ready
    draws := 2
    inputs := []
    response := none }

end Sys2Proof.Machine
end

