-- ==== Sys2Proof/Machine/Flags.lean ====
section
/-! DEFINITION. The status flags, the words CTRL and STATUS as the bus reads and writes them, and the IRQ output
(10_state.md rules R22, R24, R37, R40; 60_exceptions.md rules R130, R135). -/

namespace Sys2Proof.Machine

/-- A flag as the one-bit value it has in a register. -/
def bit (b : Bool) : BitVec 1 := BitVec.ofBool b

/-- The number of an error code (R130). -/
def ErrCode.number : ErrCode → BitVec 4
  | .ok => 0
  | .invalidRadix => 1
  | .invalidDigit => 2
  | .malformedPayload => 3
  | .malformedValue => 4
  | .valueOutOfRange => 5
  | .outputOverflow => 6
  | .badLength => 7
  | .illegalCommand => 8

/-- CTRL.VARIANT as a bit: 0 selects V0, 1 selects V1 (R22). -/
def Variant.toBit : Variant → BitVec 1
  | .v0 => 0
  | .v1 => 1

/-- The variant that a CTRL.VARIANT bit selects (R22). -/
def Variant.ofBit (b : Bool) : Variant := if b then .v1 else .v0

/-- STATUS.BUSY: PEND's valid bit is equal to it (R36). -/
def State.busy (s : State) : Bool := s.pend.isSome

/-- STATUS.ERR: always equal to ERRCODE ≠ 0 (R24). -/
def State.err (s : State) : Bool := s.errCode != .ok

/-- The IRQ output: CTRL.IRQ_EN AND STATUS.DONE at every moment (R40). -/
def State.irq (s : State) : Bool := s.irqEn && s.done

/-- STATUS as read: BUSY bit 0, DONE bit 1, ERR bit 2, WERR bit 3, ERRCODE bits 11:8, all else 0 (R24, R39). -/
def State.statusWord (s : State) : Word :=
  (0 : BitVec 20) ++ s.errCode.number ++ (0 : BitVec 4) ++ bit s.werr ++ bit s.err ++ bit s.done ++ bit s.busy

/-- CTRL as read: VARIANT bit 0, IRQ_EN bit 1, all else 0, SRST among it (R22, R39). -/
def State.ctrlWord (s : State) : Word :=
  (0 : BitVec 30) ++ bit s.irqEn ++ s.variant.toBit

/-- Whether a word written to CTRL has SRST = 1, bit 31 (R22, R150). -/
def softResetBit (w : Word) : Bool := w.getLsbD 31

/-- A CTRL write with SRST = 0 that is not dropped: it writes VARIANT and IRQ_EN and discards the rest (R22, R39). -/
def State.writeCtrlFields (s : State) (w : Word) : State :=
  { s with variant := Variant.ofBit (w.getLsbD 0), irqEn := w.getLsbD 1 }

/-- A STATUS write: DONE and WERR are cleared where the written bit is 1; nothing else changes (R24). -/
def State.writeStatus (s : State) (w : Word) : State :=
  { s with done := s.done && !w.getLsbD 1, werr := s.werr && !w.getLsbD 3 }

end Sys2Proof.Machine
end

