-- ==== Sys2Proof/Machine/Ops.lean ====
section
/-! DEFINITION. The named operations over the buffers and registers that several meanings share: reading and writing
buffer bytes (20_memory.md R44, R46, R47), issuing a command (40_command_engine.md R66), completing one, with or
without an error (R68), dropping a write (R69), and the resets and the power loss (70_reset_and_hazards.md R149, R150,
R152; 60_exceptions.md R142).
The block has no trap to take and none to return from (60_exceptions.md R132, R136): `State.complete` is the one place
where an error is reported. -/

namespace Sys2Proof.Machine

/-- ID_VALUE (R4, R21). -/
def idValue : Word := 0x52584301

/-! ### Buffer bytes -/

/-- Whether the indexes of a cell list rise strictly from `lo` on. -/
def risingFrom (lo : Nat) : List Host.Cell → Bool
  | [] => true
  | (i, _) :: t => decide (lo ≤ i) && risingFrom (i + 1) t

/-- The canonical form of a buffer: the listed indexes rise strictly. An index that is not listed has no byte in the
list (it reads as the draw's), so no entry can equal it, and equal contents are equal lists (entry 3). -/
def Memory.wf (m : Memory) : Bool := risingFrom 0 m.cells

/-- Whether every listed index lies below `cap` (R34, R35). -/
def Memory.within (cap : Nat) (m : Memory) : Bool := m.cells.all (fun c => decide (c.1 < cap))

/-- The byte listed at index `i`, if one is. -/
def lookupCell (i : Nat) : List Host.Cell → Option Byte
  | [] => none
  | (j, b) :: t => if i = j then some b else lookupCell i t

/-- Puts byte `b` at index `i` of a rising list. -/
def insertCell (i : Nat) (b : Byte) : List Host.Cell → List Host.Cell
  | [] => [(i, b)]
  | (j, c) :: t =>
    if i < j then (i, b) :: (j, c) :: t
    else if i = j then (i, b) :: t
    else (j, c) :: insertCell i b t

/-- Lists a byte sequence in ascending order from index `i` on (R46). -/
def cellsFrom (i : Nat) : List Byte → List Host.Cell
  | [] => []
  | b :: t => (i, b) :: cellsFrom (i + 1) t

/-- Byte `i` of a buffer: the byte written there, else the byte of the buffer's draw (R152). -/
def Memory.read (m : Memory) (i : Nat) : Byte :=
  match lookupCell i m.cells with
  | some b => b
  | none => Config.freeByte m.draw i

/-- Writes byte `i` of a buffer. -/
def Memory.write (m : Memory) (i : Nat) (b : Byte) : Memory :=
  { m with cells := insertCell i b m.cells }

/-- A buffer all of whose bytes are drawn anew, by draw `d` (R68, R152). -/
def Memory.drawn (d : Nat) : Memory := { draw := d, cells := [] }

/-- A buffer that holds `o` from index 0 on, and beyond it the bytes of draw `d` (R79, R114, R115; R35). -/
def Memory.holding (d : Nat) (o : List Byte) : Memory := { draw := d, cells := cellsFrom 0 o }

/-- A little-endian access of the given size at index `i` (R47). -/
def Memory.load (m : Memory) (i : Nat) : AccessSize → BusData
  | .one => .byte (m.read i)
  | .two => .half (m.read (i + 1) ++ m.read i)
  | .four => .word (m.read (i + 3) ++ m.read (i + 2) ++ m.read (i + 1) ++ m.read i)

/-- A little-endian write of the given data at index `i` (R47). -/
def Memory.store (m : Memory) (i : Nat) : BusData → Memory
  | .byte b => m.write i b
  | .half h => (m.write i (h.extractLsb' 0 8)).write (i + 1) (h.extractLsb' 8 8)
  | .word w =>
    (((m.write i (w.extractLsb' 0 8)).write (i + 1) (w.extractLsb' 8 8)).write (i + 2)
      (w.extractLsb' 16 8)).write (i + 3) (w.extractLsb' 24 8)

/-- The number of bytes of an access. -/
def AccessSize.bytes : AccessSize → Nat
  | .one => 1
  | .two => 2
  | .four => 4

/-- The size of a piece of bus data. -/
def BusData.size : BusData → AccessSize
  | .byte _ => .one
  | .half _ => .two
  | .word _ => .four

/-- The low bits of a word as data of the given size. -/
def BusData.ofWord (w : Word) : AccessSize → BusData
  | .one => .byte (w.setWidth 8)
  | .two => .half (w.setWidth 16)
  | .four => .word w

/-! ### The life of a command -/

/-- Issue of the command word `w` (R66): PEND, STATUS.BUSY (PEND's valid bit), DONE, ERRCODE and ERR_POS change, and
nothing else. -/
def State.issue (s : State) (w : Word) : State :=
  { s with pend := some w, done := false, errCode := .ok, errPos := 0 }

/-- `complete(e, p)` as far as it is the same for every command (R68): ERRCODE, ERR_POS (0 when `e` is OK), BUSY, DONE,
PEND. -/
def State.complete (s : State) (e : ErrCode) (p : Nat) : State :=
  { s with
    errCode := e
    errPos := if e = .ok then 0 else BitVec.ofNat 17 p
    done := true
    pend := none }

/-- `complete(e, p)` with `e ≠ 0` for CONV, EENC and EDEC (R68): OUT_LEN becomes 0 and the whole of OUT is drawn anew
besides. -/
def State.failOut (s : State) (e : ErrCode) (p : Nat) : State :=
  { s with
    outLen := 0
    outBuf := Memory.drawn s.draws
    draws := s.draws + 1 }.complete e p

/-- A successful CONV, EENC or EDEC with output `o` (R79, R114, R115): OUT[0 .. len o) holds `o`, the rest of OUT is
drawn, OUT_LEN is the length, and `complete(0, 0)`. -/
def State.succeedOut (s : State) (o : List Byte) : State :=
  { s with
    outLen := BitVec.ofNat 18 o.length
    outBuf := Memory.holding s.draws o
    draws := s.draws + 1 }.complete .ok 0

/-- A write dropped while busy: it sets STATUS.WERR and has no other effect (R69). -/
def State.dropWrite (s : State) : State := { s with werr := true }

/-! ### Reset and power -/

/-- Every register, flag, buffer and PEND at its reset value, IN and OUT drawn anew (R41, R152). The parameters, the
reset and power condition and the model's own fields stay. -/
def State.toResetValues (s : State) : State :=
  { State.reset with
    cfg := s.cfg
    inBuf := Memory.drawn s.draws
    outBuf := Memory.drawn (s.draws + 1)
    draws := s.draws + 2
    phase := s.phase
    inputs := s.inputs
    response := s.response }

/-- The reset input is asserted (R149). -/
def State.assertReset (s : State) : State := { s.toResetValues with phase := .inReset }

/-- The reset input is released (R149). Where it was not asserted, nothing happens; after a power loss the block still
waits for a hard reset (R142, U9). DESIGN CHOICE (entry 15): this is so as well where the input was asserted when the power
was lost and held since, on which the spec is silent. -/
def State.releaseReset (s : State) : State :=
  match s.phase with
  | .inReset => { s with phase := .ready }
  | .ready => s
  | .powerLost => s

/-- Power is lost (R142, U9): what the registers, flags, PEND and buffers hold then is not specified, and the block
waits for a hard reset. DESIGN CHOICE (entry 15): the level of a reset input that is asserted at the loss is forgotten, so
that a new assertion must come. -/
def State.losePower (s : State) : State :=
  { State.afterPowerLoss s.draws with
    cfg := s.cfg
    inBuf := Memory.drawn (s.draws + 1)
    outBuf := Memory.drawn (s.draws + 2)
    draws := s.draws + 3
    phase := .powerLost
    inputs := s.inputs
    response := s.response }

end Sys2Proof.Machine
end

