-- ==== Sys2Proof/Machine/Operands.lean ====
section
/-! DEFINITION. The operands of the commands: which registers and buffer bytes each reads, and as what
(30_encoding.md R60, R61; 20_memory.md R46, R51; 10_state.md R30). -/

namespace Sys2Proof.Machine

/-- The reduced radix R of a variant: 254 in V0, 255 in V1 (R90). -/
def Variant.radix : Variant → Nat
  | .v0 => 254
  | .v1 => 255

/-- IN[i]. -/
def State.inByte (s : State) (i : Nat) : Byte := s.inBuf.read i

/-- OUT[i]. -/
def State.outByte (s : State) (i : Nat) : Byte := s.outBuf.read i

/-- The bytes `[m[0], …, m[n-1]]` of a buffer, element 0 first (R46). -/
def Memory.bytes (m : Memory) (n : Nat) : List Byte := (List.range n).map m.read

/-- The byte sequence CONV, EENC and EDEC consume: `[IN[0], …, IN[IN_LEN-1]]` (R79, R114, R115). -/
def State.inputBytes (s : State) : List Byte := s.inBuf.bytes s.inLen.toNat

/-- The byte sequence the last CONV, EENC or EDEC produced: `[OUT[0], …, OUT[OUT_LEN-1]]` (R35). -/
def State.outputBytes (s : State) : List Byte := s.outBuf.bytes s.outLen.toNat

/-- Byte `k` of a safe length, in wire order: bits 8k+7:8k (R30). -/
def safeByte (w : Word) (k : Nat) : Byte := w.extractLsb' (8 * k) 8

/-- The SAFE word with wire bytes `s0`, `s1`, `s2`, `s3` (R96: `{s[3], s[2], s[1], s[0]}`). -/
def safeWord (s0 s1 s2 s3 : Byte) : Word := s3 ++ s2 ++ s1 ++ s0

/-- Whether IN_LEN exceeds IN_CAP, the BAD_LENGTH condition of CONV, EENC and EDEC (R27, R79, R114, R115). -/
def State.badLength (s : State) : Bool := decide (s.cfg.inCap < s.inLen.toNat)

end Sys2Proof.Machine
end

