-- ==== Sys2Proof/Machine/Bus.lean ====
section
/-! DEFINITION. The bus port: the address map (20_memory.md R42), which accesses are answered by a bus error (R43 to
R45), what a read returns (R47, R49; 10_state.md section 2; 40_command_engine.md R70), and what a write does (R66, R69;
70_reset_and_hazards.md R150). -/

namespace Sys2Proof.Machine

/-- The thirteen registers, in the order of their offsets (10_state.md, register summary). -/
inductive Reg where
  | id
  | ctrl
  | cmd
  | status
  | fromBase
  | toBase
  | inLen
  | outLen
  | value
  | safe
  | errPos
  | inCap
  | outCap
  deriving DecidableEq, Repr

/-- The location an access reaches: a register, or the first of the buffer bytes it touches. -/
inductive Target where
  | reg (r : Reg)
  | inBuf (i : Nat)
  | outBuf (i : Nat)
  deriving DecidableEq, Repr

/-- The register at offset `4 * k` (R42). -/
def registerAt : Nat → Option Reg
  | 0 => some .id
  | 1 => some .ctrl
  | 2 => some .cmd
  | 3 => some .status
  | 4 => some .fromBase
  | 5 => some .toBase
  | 6 => some .inLen
  | 7 => some .outLen
  | 8 => some .value
  | 9 => some .safe
  | 10 => some .errPos
  | 11 => some .inCap
  | 12 => some .outCap
  | _ => none

/-- The offset of the first byte of the IN window (R42). -/
def inWindow : Nat := 0x10000

/-- The offset of the first byte of the OUT window (R42). -/
def outWindow : Nat := 0x20000

/-- The location an access of `size` bytes at `off` reaches, or none where the access is answered by a bus error: a
reserved offset, a register access that is not an aligned 4-byte access, a buffer access that is not naturally aligned
(R42 to R45). -/
def locate (cfg : Config) (off : Offset) (size : AccessSize) : Option Target :=
  let o := off.toNat
  if o < 0x34 then
    if size = .four ∧ o % 4 = 0 then (registerAt (o / 4)).map .reg else none
  else if inWindow ≤ o ∧ o < inWindow + cfg.inCap then
    if o % size.bytes = 0 then some (.inBuf (o - inWindow)) else none
  else if outWindow ≤ o ∧ o < outWindow + cfg.outCap then
    if o % size.bytes = 0 then some (.outBuf (o - outWindow)) else none
  else none

/-- A register as the bus reads it while its value is defined: reserved bits and write-only bits read as 0 (R21 to R33,
R39). -/
def State.readReg (s : State) : Reg → Word
  | .id => idValue
  | .ctrl => s.ctrlWord
  | .cmd => 0
  | .status => s.statusWord
  | .fromBase => s.fromBase.setWidth 32
  | .toBase => s.toBase.setWidth 32
  | .inLen => s.inLen.setWidth 32
  | .outLen => s.outLen.setWidth 32
  | .value => s.value
  | .safe => s.safe
  | .errPos => s.errPos.setWidth 32
  | .inCap => BitVec.ofNat 32 s.cfg.inCap
  | .outCap => BitVec.ofNat 32 s.cfg.outCap

/-- What an access of the given size reads at a location while its value is defined (R43, R47). -/
def State.readTarget (s : State) (size : AccessSize) : Target → BusData
  | .reg r => .word (s.readReg r)
  | .inBuf i => s.inBuf.load i size
  | .outBuf i => s.outBuf.load i size

/-- The locations whose reads return an unspecified value while busy: OUT_LEN, VALUE, SAFE, ERR_POS and OUT (R70). -/
def Target.openWhileBusy : Target → Bool
  | .reg .outLen => true
  | .reg .value => true
  | .reg .safe => true
  | .reg .errPos => true
  | .outBuf _ => true
  | .reg .id => false
  | .reg .ctrl => false
  | .reg .cmd => false
  | .reg .status => false
  | .reg .fromBase => false
  | .reg .toBase => false
  | .reg .inLen => false
  | .reg .inCap => false
  | .reg .outCap => false
  | .inBuf _ => false

/-- The port answers the access. -/
def State.answer (s : State) (r : BusResponse) : State := { s with response := some r }

/-- The transaction Read(off, size): it changes nothing but the model's own fields (R49); a read of a location that is
open while busy takes a fresh draw of the access's width (R70, U3; entry 5). -/
def State.busRead (s : State) (off : Offset) (size : AccessSize) : State :=
  match locate s.cfg off size with
  | none => s.answer .error
  | some t =>
    if s.busy && t.openWhileBusy then
      { s with draws := s.draws + 1 }.answer (.data (BusData.ofWord (Config.freeData s.draws) size))
    else s.answer (.data (s.readTarget size t))

/-- A write that is dropped while busy (R69); while idle it has the given effect. -/
def State.unlessBusy (s : State) (effect : State) : State := if s.busy then s.dropWrite else effect

/-- A 4-byte write to a register: all 32 bits reach it at once (R43, R48); what each register keeps of them, what is
dropped while busy and what never is (R21 to R33, R39, R66, R69, R150). -/
def State.writeReg (s : State) (w : Word) : Reg → State
  | .id => s
  | .ctrl => if softResetBit w then s.toResetValues else s.unlessBusy (s.writeCtrlFields w)
  | .cmd => s.unlessBusy (s.issue w)
  | .status => s.writeStatus w
  | .fromBase => s.unlessBusy { s with fromBase := w.extractLsb' 0 9 }
  | .toBase => s.unlessBusy { s with toBase := w.extractLsb' 0 9 }
  | .inLen => s.unlessBusy { s with inLen := w.extractLsb' 0 17 }
  | .outLen => s
  | .value => s.unlessBusy { s with value := w }
  | .safe => s.unlessBusy { s with safe := w }
  | .errPos => s
  | .inCap => s
  | .outCap => s

/-- A write of data to a location. Writes to OUT are ignored without error, busy or not (R35, R45, R69). A register is
only ever reached by 4-byte data (`locate`, R43). -/
def State.writeTarget (s : State) (d : BusData) : Target → State
  | .reg r =>
    match d with
    | .word w => s.writeReg w r
    | .half _ => s
    | .byte _ => s
  | .inBuf i => s.unlessBusy { s with inBuf := s.inBuf.store i d }
  | .outBuf _ => s

/-- The transaction Write(off, size, data), the size being that of the data. -/
def State.busWrite (s : State) (off : Offset) (d : BusData) : State :=
  match locate s.cfg off d.size with
  | none => s.answer .error
  | some t => (s.writeTarget d t).answer .done

/-- A bus access happens in a powered block whose reset is released; otherwise the model does not admit it (R149, U8;
R142, U9). `done` is the state the access leaves. -/
def busAccess (s done : State) : Host.Outcome State Fault Refusal :=
  match s.phase with
  | .ready => .next done
  | .inReset => .refused .accessDuringReset
  | .powerLost => .refused .accessAfterPowerLoss

end Sys2Proof.Machine
end

