-- ==== Sys2Proof/Machine/Engine.lean ====
section
/-! DEFINITION. The commands that compute nothing (40_command_engine.md sections 2 and 3): NOP and the illegal
command. -/

namespace Sys2Proof.Machine

/-- NOP: `complete(0, 0)` (R72). -/
def execNop (s : State) : Host.Outcome State Fault Refusal :=
  .next (s.complete .ok 0)

/-- An illegal command: `complete(ILLEGAL_COMMAND, 0)`; OUT, OUT_LEN, VALUE and SAFE are unchanged (R73). -/
def runIllegal (s : State) : State := s.complete .illegalCommand 0

end Sys2Proof.Machine
end

