-- ==== Sys2Proof/Machine/Escape.lean ====
section
/-! DEFINITION. The escape codec EENC and EDEC (43_escape_codec.md). -/

namespace Sys2Proof.Machine

/-- ESC, the escape byte of both variants (R110). -/
def esc : Byte := 0xFE

/-- The code table: the code that stands for a byte after ESC, for the bytes of the escaped set E (R111, R112). -/
def escapeCode : Variant → Byte → Option Byte
  | .v0, x => if x = 0x00 then some 1 else if x = 0xFE then some 2 else if x = 0xFF then some 3 else none
  | .v1, x => if x = 0x00 then some 1 else if x = 0xFE then some 2 else none

/-- The decode map, the inverse of the code table; a code without an image is malformed (R113). -/
def escapeDecode : Variant → Byte → Option Byte
  | .v0, c => if c = 1 then some 0x00 else if c = 2 then some 0xFE else if c = 3 then some 0xFF else none
  | .v1, c => if c = 1 then some 0x00 else if c = 2 then some 0xFE else none

/-- What EENC emits for one byte: an escape pair for a byte of E, else the byte itself (R114). -/
def escapeByte (v : Variant) (x : Byte) : List Byte :=
  match escapeCode v x with
  | some c => [esc, c]
  | none => [x]

/-- The escape encoding of a payload (R114). -/
def escapeEncode (v : Variant) (x : List Byte) : List Byte := x.flatMap (escapeByte v)

/-- What a scan of an escaped input gives: the decoded bytes, or the index of the ESC of the first bad pair (R115). -/
inductive Scan where
  | decoded (o : List Byte)
  | malformed (pos : Nat)
  deriving DecidableEq, Repr

/-- Puts a decoded byte before what the rest of the scan gives. -/
def Scan.prepend (b : Byte) : Scan → Scan
  | .decoded o => .decoded (b :: o)
  | .malformed pos => .malformed pos

/-- The one-pass scan of EDEC, from the input index `i` on (R115). -/
def escapeScan (v : Variant) (i : Nat) : List Byte → Scan
  | [] => .decoded []
  | [x] => if x = esc then .malformed i else .decoded [x]
  | x :: c :: rest =>
    if x = esc then
      match escapeDecode v c with
      | none => .malformed i
      | some b => (escapeScan v (i + 2) rest).prepend b
    else (escapeScan v (i + 1) (c :: rest)).prepend x

/-- EENC (R114). -/
def execEenc (s : State) : Host.Outcome State Fault Refusal :=
  .next
    (if s.badLength then s.failOut .badLength 0
    else s.succeedOut (escapeEncode s.variant s.inputBytes))

/-- EDEC (R115). -/
def execEdec (s : State) : Host.Outcome State Fault Refusal :=
  .next
    (if s.badLength then s.failOut .badLength 0
    else
      match escapeScan s.variant 0 s.inputBytes with
      | .malformed pos => s.failOut .malformedPayload pos
      | .decoded o => s.succeedOut o)

end Sys2Proof.Machine
end

