-- ==== Sys2Proof/Machine/Radix.lean ====
section
/-! DEFINITION. The radix converter CONV (41_radix_converter.md). Its arithmetic is exact on naturals (R80). -/

namespace Sys2Proof.Machine

/-- `val_F(d)`, by Horner's method (R75). Element 0 is the most significant digit. -/
def digitsValue (base : Nat) (d : List Byte) : Nat := d.foldl (fun acc x => acc * base + x.toNat) 0

/-- The loop of `rep_T(V)` (R78): while V ≠ 0, put V mod T before the digits so far and go on with V div T. `fuel`
bounds the number of turns. -/
def minimalDigitsLoop (base : Nat) : Nat → Nat → List Byte → List Byte
  | 0, _, acc => acc
  | fuel + 1, v, acc =>
    if v = 0 then acc
    else minimalDigitsLoop base fuel (v / base) (BitVec.ofNat 8 (v % base) :: acc)

/-- `rep_T(V)`, the minimal digit sequence of V in base T (R78), empty for V = 0. A base is at least 2, so the loop
turns at most as often as V has bits. -/
def minimalDigits (base v : Nat) : List Byte := minimalDigitsLoop base (v.log2 + 1) v []

/-- A radix is legal in [2, 256] (R76). -/
def legalRadix (r : Nat) : Bool := decide (2 ≤ r) && decide (r ≤ 256)

/-- The least index of a digit that is not legal in base F (R77). -/
def firstIllegalDigit (base : Nat) (d : List Byte) : Option Nat :=
  d.findIdx? (fun x => decide (base ≤ x.toNat))

/-- CONV (R79), its checks in the rule's order. -/
def execConv (s : State) : Host.Outcome State Fault Refusal :=
  .next
    (if s.badLength then s.failOut .badLength 0
    else if !legalRadix s.fromBase.toNat then s.failOut .invalidRadix 0
    else if !legalRadix s.toBase.toNat then s.failOut .invalidRadix 1
    else
      match firstIllegalDigit s.fromBase.toNat s.inputBytes with
      | some i => s.failOut .invalidDigit i
      | none =>
        let r := minimalDigits s.toBase.toNat (digitsValue s.fromBase.toNat s.inputBytes)
        if s.cfg.outCap < r.length then s.failOut .outputOverflow 0 else s.succeedOut r)

end Sys2Proof.Machine
end

