-- ==== Sys2Proof/Machine/Safe.lean ====
section
/-! DEFINITION. The safe-value re-mapper SENC and SDEC (42_safe_remapper.md; the conflicts C1 and C2 as
90_conflicts.md resolves them). -/

namespace Sys2Proof.Machine

/-- `s[k] = digit_k(v) + 1` with `digit_k(v) = (v div R^(3-k)) mod R` (R93). -/
def encodedByte (radix v k : Nat) : Byte := BitVec.ofNat 8 (v / radix ^ (3 - k) % radix + 1)

/-- The safe encoding of an encodable value (R93). -/
def safeEncode (radix v : Nat) : Word :=
  safeWord (encodedByte radix v 0) (encodedByte radix v 1) (encodedByte radix v 2) (encodedByte radix v 3)

/-- The digit that byte `k` of a safe length carries: `s[k] - 1` (R94). -/
def safeDigit (w : Word) (k : Nat) : Nat := (safeByte w k).toNat - 1

/-- The value of a well-formed safe length: the sum of `(s[k] - 1) × R^(3-k)` (R94). -/
def safeDecode (radix : Nat) (w : Word) : Nat :=
  safeDigit w 0 * radix ^ 3 + safeDigit w 1 * radix ^ 2 + safeDigit w 2 * radix + safeDigit w 3

/-- The least `k` in 0 to 3 whose byte satisfies `p` (R97). -/
def firstSafeByte (w : Word) (p : Byte → Bool) : Option Nat :=
  [0, 1, 2, 3].find? (fun k => p (safeByte w k))

/-- SENC (R96). -/
def execSenc (s : State) : Host.Outcome State Fault Refusal :=
  .next
    (if s.variant.radix ^ 4 ≤ s.value.toNat then s.complete .valueOutOfRange 0
    else { s with safe := safeEncode s.variant.radix s.value.toNat }.complete .ok 0)

/-- SDEC (R97): all four bytes are checked for 0 before any is checked for a digit that is too large (R95). -/
def execSdec (s : State) : Host.Outcome State Fault Refusal :=
  .next
    (match firstSafeByte s.safe (fun b => b == 0) with
    | some k => s.complete .malformedValue k
    | none =>
      match firstSafeByte s.safe (fun b => decide (s.variant.radix ≤ b.toNat - 1)) with
      | some k => s.complete .invalidDigit k
      | none => { s with value := BitVec.ofNat 32 (safeDecode s.variant.radix s.safe) }.complete .ok 0)

end Sys2Proof.Machine
end

