-- ==== Sys2Proof/Machine/Dispatch.lean ====
section
/-! DEFINITION. One arm per command: the completion step of that command (40_command_engine.md R67). -/

namespace Sys2Proof.Machine

/-- The engine's completion of a command, against the current state (R67). -/
def exec (i : Instr) (s : State) : Host.Outcome State Fault Refusal :=
  match i with
  | .nop => Sys2Proof.Machine.execNop s
  | .conv => Sys2Proof.Machine.execConv s
  | .senc => Sys2Proof.Machine.execSenc s
  | .sdec => Sys2Proof.Machine.execSdec s
  | .eenc => Sys2Proof.Machine.execEenc s
  | .edec => Sys2Proof.Machine.execEdec s

end Sys2Proof.Machine
end

