-- ==== Sys2Proof/Machine/Agents.lean ====
section
/-! DEFINITION. What each agent does when it moves: the engine (40_command_engine.md R67), the host (20_memory.md
section 1), the reset input and the power supply (70_reset_and_hazards.md R149; 60_exceptions.md R142); and which agent
moves next, read from the state (20_memory.md R50; entry 1). -/

namespace Sys2Proof.Machine

/-- The engine's turn. Its step is enabled exactly when PEND is valid and runs the command PEND's word selects (R67), an
illegal word by R73. In every other case the engine takes no step and the state stays (entry 11). -/
def engineStep (s : State) : Host.Outcome State Fault Refusal :=
  match s.phase with
  | .ready =>
    match s.pend with
    | some w =>
      match decode w with
      | .command i => exec i s
      | .illegal _ => .next (runIllegal s)
    | none => .next s
  | .inReset => .next s
  | .powerLost => .next s

/-- One event. -/
def applyInput (s : State) : Input → Host.Outcome State Fault Refusal
  | .read off size => busAccess s (s.busRead off size)
  | .write off d => busAccess s (s.busWrite off d)
  | .engine => engineStep s
  | .assertReset => .next s.assertReset
  | .releaseReset => .next s.releaseReset
  | .powerLoss => .next s.losePower

/-- The event that comes next: the first of the list, and the engine's turn once none is left (R71; entry 1). -/
def State.nextInput (s : State) : Input := s.inputs.headD .engine

/-- The state as the next event meets it: that event is taken from the list, and the port gives no answer yet. -/
def State.turn (s : State) : State := { s with inputs := s.inputs.tail, response := none }

/-- The events to come with the engine's turn before them. -/
def engineFirst (l : List Input) : List Input :=
  match l with
  | [] => []
  | e :: t => .engine :: e :: t

end Sys2Proof.Machine
end

