-- ==== Sys2Proof/Machine/Step.lean ====
section
/-! DEFINITION. One step of the whole block: the next event of the schedule happens (20_memory.md R50). -/

namespace Sys2Proof.Machine

/-- One step (R50). -/
def step (s : State) : Host.Outcome State Fault Refusal := applyInput s.turn s.nextInput

/-- The state with a command word where the engine fetches its next command: issued into PEND as a CMD write issues it
(R66), the block powered and out of reset, and the engine's turn next (entry 10). -/
def State.withFetchWord (s : State) (nbits w : Nat) : State :=
  { s.issue (BitVec.ofNat 32 (w % 2 ^ nbits)) with
    phase := .ready
    inputs := engineFirst s.inputs }

end Sys2Proof.Machine
end

