-- ==== Sys2Proof/Safety.lean ====
section
/-! DEFINITION. What counts as a sound state of the block, in the terms the claims use. -/

namespace Sys2Proof.Machine

/-- Both buffers are in canonical form and inside their capacities (R34, R35; entry 3). -/
def State.buffersWf (s : State) : Prop :=
  s.inBuf.wf = true ∧ s.inBuf.within s.cfg.inCap = true ∧
  s.outBuf.wf = true ∧ s.outBuf.within s.cfg.outCap = true

/-- No draw still to come is one that fills a buffer, and the two buffers have draws of their own (entry 4). -/
def State.drawsFresh (s : State) : Prop :=
  s.inBuf.draw < s.draws ∧ s.outBuf.draw < s.draws ∧ s.inBuf.draw ≠ s.outBuf.draw

/-- While busy, DONE, ERRCODE and ERR_POS are clear (R24: "BUSY and DONE are never both 1", ERRCODE "0 while BUSY = 1";
R66: ERR_POS <- 0 at issue). -/
def State.busyClear (s : State) : Prop :=
  s.busy = true → s.done = false ∧ s.errCode = .ok ∧ s.errPos = 0

/-- ERR_POS is 0 when the last command succeeded, and always the index of an IN byte (R131, R68). -/
def State.errPosBounded (s : State) : Prop :=
  (s.errCode = .ok → s.errPos = 0) ∧ s.errPos.toNat < s.cfg.inCap

/-- OUT lists exactly the bytes [0, OUT_LEN), and OUT_LEN is at most OUT_CAP: those bytes are a command's result and
every other OUT byte is a drawn one (R35). -/
def State.outHolds (s : State) : Prop :=
  s.outBuf.cells.map Prod.fst = List.range s.outLen.toNat ∧ s.outLen.toNat ≤ s.cfg.outCap

/-- Every register and flag has its reset value, PEND is invalid, and no buffer byte is written (R41). -/
def State.atResetValues (s : State) : Prop :=
  s.variant = .v0 ∧ s.irqEn = false ∧ s.done = false ∧ s.werr = false ∧ s.errCode = .ok ∧
  s.fromBase = 256 ∧ s.toBase = 254 ∧ s.inLen = 0 ∧ s.outLen = 0 ∧ s.value = 0 ∧ s.safe = 0 ∧
  s.errPos = 0 ∧ s.pend = none ∧ s.inBuf.cells = [] ∧ s.outBuf.cells = []

/-- The invariant of the block. After a power loss only the buffers' form is claimed, since what the registers hold is
not specified (R142, U9); while reset is asserted every register is held at its reset value (R149). -/
structure State.Inv (s : State) : Prop where
  buffersWf : s.buffersWf
  drawsFresh : s.drawsFresh
  busyClear : s.phase ≠ .powerLost → s.busyClear
  errPosBounded : s.phase ≠ .powerLost → s.errPosBounded
  outHolds : s.phase ≠ .powerLost → s.outHolds
  heldInReset : s.phase = .inReset → s.atResetValues

/-- The result of an outcome is a state with a property; a fault or a refusal has none. -/
def endsIn (P : State → Prop) (o : Host.Outcome State Fault Refusal) : Prop := ∃ t, o = .next t ∧ P t

end Sys2Proof.Machine
end

