-- ==== Sys2Proof/Certificates/Slice0/Obligations.lean ====
section
/-! DEFINITION. The statements for the provers. Each says which rule of spec/ it formalises, or what it rests on. The
definitions under `Sys2Proof.Claims` write the rules' own formulas down a second time, apart from the model's
functions, so that a statement does not repeat the definition it is about. -/

namespace Sys2Proof.Claims

open Sys2Proof.Machine

/-- R of a variant (R90): 254 in V0, 255 in V1. -/
def radixOf (v : Variant) : Nat := if v = .v0 then 254 else 255

/-- A radix is legal in [2, 256] (R76). -/
def Legal (r : Nat) : Prop := 2 ≤ r ∧ r ≤ 256

/-- `val_F(d)` as R75's sum: d[i] × F^(n-1-i) over the indexes of d. -/
def positional (base : Nat) (d : List Byte) : Nat :=
  ((List.range d.length).map fun i => (d.getD i 0).toNat * base ^ (d.length - 1 - i)).sum

/-- The operand byte sequence `[IN[0], …, IN[n-1]]` with n = IN_LEN (R79, R114, R115). -/
def input (s : State) : List Byte := (List.range s.inLen.toNat).map s.inByte

/-- The result byte sequence `[OUT[0], …, OUT[OUT_LEN-1]]` (R35). -/
def output (s : State) : List Byte := (List.range s.outLen.toNat).map s.outByte

/-- Byte k of a safe length: bits 8k+7:8k (R30). -/
def lane (w : Word) (k : Nat) : Nat := (w.extractLsb' (8 * k) 8).toNat

/-- A safe length read with byte 0 most significant (R98, law 4). -/
def wireOrder (w : Word) : Nat := lane w 0 * 2 ^ 24 + lane w 1 * 2 ^ 16 + lane w 2 * 2 ^ 8 + lane w 3

/-- A completion that writes no result (R68): ERRCODE, ERR_POS, DONE, BUSY and PEND, and nothing else. -/
def completed (s : State) (e : ErrCode) (p : Nat) : State :=
  { s with errCode := e, errPos := BitVec.ofNat 17 p, done := true, pend := none }

/-- A failed CONV, EENC or EDEC (R68, R132): OUT_LEN = 0 and every OUT byte newly drawn besides; nothing else changes. -/
def FailedOut (s t : State) (e : ErrCode) (p : Nat) : Prop :=
  t = { completed s e p with outLen := 0, outBuf := t.outBuf, draws := s.draws + 1 } ∧
  ∀ i, t.outByte i = Config.freeByte s.draws i

/-- A successful CONV, EENC or EDEC with result `o`: OUT[0, len o) is o, OUT_LEN its length, every OUT byte from there on
newly drawn (R35); nothing else changes but what every completion writes. -/
def WroteOut (s t : State) (o : List Byte) : Prop :=
  t = { completed s .ok 0 with outLen := t.outLen, outBuf := t.outBuf, draws := s.draws + 1 } ∧
  output t = o ∧ t.outLen.toNat = o.length ∧
  ∀ i, o.length ≤ i → t.outByte i = Config.freeByte s.draws i

/-- What EENC emits for a byte (R111, R114). -/
def escaped (v : Variant) (x : Byte) : List Byte :=
  if x = 0x00 then [0xFE, 1] else if x = 0xFE then [0xFE, 2] else if x = 0xFF ∧ v = .v0 then [0xFE, 3] else [x]

/-- The escaped set E of a variant (R112). -/
def inE (v : Variant) (x : Byte) : Bool := x == 0x00 || x == 0xFE || (x == 0xFF && v == .v0)

/-- One unit of an escaped input and the byte it stands for (R113, R115): a byte other than ESC, or ESC and a valid code. -/
def IsEscapeUnit (v : Variant) (u : List Byte) (b : Byte) : Prop :=
  (u = [b] ∧ b ≠ 0xFE) ∨ (u = [0xFE, 1] ∧ b = 0x00) ∨ (u = [0xFE, 2] ∧ b = 0xFE) ∨
  (v = .v0 ∧ u = [0xFE, 3] ∧ b = 0xFF)

/-- `y` is the units `ps`, one after the other. -/
def EscapeUnits (v : Variant) (ps : List (List Byte × Byte)) (y : List Byte) : Prop :=
  (∀ p ∈ ps, IsEscapeUnit v p.1 p.2) ∧ y = (ps.map Prod.fst).flatten

/-- A bad pair starts here (R115): ESC is the last byte, or its code is not valid. -/
def BadPair (v : Variant) (tail : List Byte) : Prop :=
  tail = [0xFE] ∨ ∃ c rest, tail = 0xFE :: c :: rest ∧ ∀ b, ¬ IsEscapeUnit v [0xFE, c] b

/-- The accesses that are not answered by a bus error (R42 to R45). -/
def AccessOk (cfg : Config) (off size : Nat) : Prop :=
  (off < 0x34 ∧ size = 4 ∧ off % 4 = 0) ∨
  (0x10000 ≤ off ∧ off < 0x10000 + cfg.inCap ∧ off % size = 0) ∨
  (0x20000 ≤ off ∧ off < 0x20000 + cfg.outCap ∧ off % size = 0)

/-- The state while the event that comes next is handled: it is taken from the list, no answer yet. -/
def popped (s : State) : State := { s with inputs := s.inputs.tail, response := none }

/-- The block after a reset (R41, R150, R152): every register and flag at the value the rule lists, PEND invalid, every
IN and OUT byte newly drawn; the parameters, the events to come, the answer and the condition `ph` as given. -/
def ResetTo (s t : State) (ph : Phase) : Prop :=
  t.variant = .v0 ∧ t.irqEn = false ∧ t.ctrlWord = 0 ∧ t.statusWord = 0 ∧ t.fromBase = 256 ∧ t.toBase = 254 ∧
  t.inLen = 0 ∧ t.outLen = 0 ∧ t.value = 0 ∧ t.safe = 0 ∧ t.errPos = 0 ∧ t.pend = none ∧ t.irq = false ∧
  (∀ i, t.inByte i = Config.freeByte s.draws i) ∧ (∀ i, t.outByte i = Config.freeByte (s.draws + 1) i) ∧
  t.cfg = s.cfg ∧ t.phase = ph ∧ t.inputs = s.inputs.tail

/-- The input of CONV, EENC and EDEC: IN[0, IN_LEN) and IN_LEN, with the parameters. -/
def SameInput (s s' : State) : Prop :=
  s.cfg = s'.cfg ∧ s.inLen = s'.inLen ∧ ∀ i < s.inLen.toNat, s.inByte i = s'.inByte i

/-- The operands each command reads, as R61's table lists them; the parameters stand with the commands whose rule names
IN_CAP or OUT_CAP. -/
def SameOperands (s s' : State) : Instr → Prop
  | .nop => True
  | .conv => SameInput s s' ∧ s.fromBase = s'.fromBase ∧ s.toBase = s'.toBase
  | .senc => s.value = s'.value ∧ s.variant = s'.variant
  | .sdec => s.safe = s'.safe ∧ s.variant = s'.variant
  | .eenc => SameInput s s' ∧ s.variant = s'.variant
  | .edec => SameInput s s' ∧ s.variant = s'.variant

/-- The results each command writes, as R61's table lists them: ERRCODE and ERR_POS by all; SAFE by SENC and VALUE by SDEC,
which an error leaves unwritten (R68); OUT_LEN and OUT[0, OUT_LEN) by CONV, EENC and EDEC. -/
def SameResults (t t' : State) (i : Instr) : Prop :=
  t.errCode = t'.errCode ∧ t.errPos = t'.errPos ∧
  match i with
  | .nop => True
  | .senc => t.errCode = .ok → t.safe = t'.safe
  | .sdec => t.errCode = .ok → t.value = t'.value
  | .conv => t.outLen = t'.outLen ∧ output t = output t'
  | .eenc => t.outLen = t'.outLen ∧ output t = output t'
  | .edec => t.outLen = t'.outLen ∧ output t = output t'

end Sys2Proof.Claims

open Sys2Proof Sys2Proof.Machine Sys2Proof.Claims

/-! ### Encoding, decoding, fetching -/

/-- R60, R61: decoding the encoding of a command gives the command back. -/
def Obligations.DecodeOfEncodeIsTheCommand : Prop :=
  ∀ i : Instr, i.wf = true → decode (encode i) = .command i

/-- R61: "the word must equal the command word in this table". Every word is covered. -/
def Obligations.DecodeGivesACommandOnlyForItsWord : Prop :=
  ∀ (w : Word) (i : Instr), decode w = .command i ↔ w = encode i

/-- R61's table, word by word, and the illegal words 0x06 and 0x101 (R62, R73). -/
def Obligations.TableWordsDecodeAsTheTableSays : Prop :=
  decode 0x00000000 = .command .nop ∧ decode 0x00000001 = .command .conv ∧ decode 0x00000002 = .command .senc ∧
  decode 0x00000003 = .command .sdec ∧ decode 0x00000004 = .command .eenc ∧ decode 0x00000005 = .command .edec ∧
  decode 0x00000006 = .illegal .opcodeUnassigned ∧ decode 0x00000101 = .illegal .reservedBitsSet

/-- R62: the illegal words are exactly those outside the table, that is, those with an opcode in 0x06 to 0xFF or with RSV ≠ 0;
such a word is issued like any other, completes with ILLEGAL_COMMAND at position 0, and changes nothing else. -/
def Obligations.IllegalWordsAreTheOthersAndComplete : Prop :=
  (∀ w : Word, ((∃ r, decode w = .illegal r) ↔ ∀ i, w ≠ encode i) ∧
    ((∃ r, decode w = .illegal r) ↔ (6 ≤ (w.extractLsb' 0 8).toNat ∨ w.extractLsb' 8 24 ≠ 0))) ∧
  (∀ (s : State) (w : Word), s.phase = .ready → s.busy = false → s.nextInput = .write 0x008 (.word w) →
    step s = .next { popped s with pend := some w, done := false, errCode := .ok, errPos := 0, response := some .done }) ∧
  (∀ (s : State) (w : Word), s.phase = .ready → s.nextInput = .engine → s.pend = some w → (∀ i, w ≠ encode i) →
    step s = .next (completed (popped s) .illegalCommand 0))

/-- R67: the engine's step runs the command that PEND's word selects, against the current state. The model takes the event
from its list and clears the port's answer around it (entries 1 and 7). -/
def Obligations.StepRunsThePendingCommand : Prop :=
  ∀ (s : State) (w : Word) (i : Instr), s.phase = .ready → s.nextInput = .engine → s.pend = some w →
    decode w = .command i → step s = exec i { s with inputs := s.inputs.tail, response := none }

/-- The next step after `withFetchWord` runs exactly the placed command (entry 10). -/
def Obligations.PlacedWordIsTheNextCommandRun : Prop :=
  ∀ (s : State) (w : Word) (i : Instr), decode w = .command i →
    step (s.withFetchWord 32 w.toNat) =
      exec i { s with
        pend := some w, done := false, errCode := .ok, errPos := 0, phase := .ready, response := none }

/-! ### NOP and the illegal command -/

/-- R72: the word 0 is NOP; NOP is `complete(0, 0)` and changes nothing else; with IRQ_EN = 1 it raises IRQ; from reset, `nop` and its completion
give STATUS = 0x2. -/
def Obligations.NopCompletesAndChangesNothingElse : Prop :=
  decode 0x00000000 = .command .nop ∧
  (∀ s : State, exec .nop s = .next (completed s .ok 0) ∧ (completed s .ok 0).irq = s.irqEn) ∧
  ∃ t, Sys2Proof.core.run 2 { State.reset with inputs := [.write 0x008 (.word 0x00000000)] } = .next t ∧
    t.statusWord = 0x00000002

/-- R73: an illegal word, 0x101 among them, completes with ERRCODE 8, ERR_POS 0, ERR = 1, and OUT, OUT_LEN, VALUE and SAFE
are unchanged; from reset, `cmd 0x6` gives STATUS = 0x806. -/
def Obligations.IllegalCommandReportsCodeEight : Prop :=
  (∀ (s : State) (w : Word), s.phase = .ready → s.nextInput = .engine → s.pend = some w → (∀ i, w ≠ encode i) →
    ∃ t, step s = .next t ∧ t = completed (popped s) .illegalCommand 0 ∧ t.busy = false ∧ t.done = true ∧
      t.errCode.number = 8 ∧ t.err = true ∧ t.outBuf = s.outBuf ∧ t.outLen = s.outLen ∧ t.value = s.value ∧
      t.safe = s.safe) ∧
  (∀ i, (0x00000101 : Word) ≠ encode i) ∧
  ∃ t, Sys2Proof.core.run 2 { State.reset with inputs := [.write 0x008 (.word 0x00000006)] } = .next t ∧
    t.statusWord = 0x00000806

/-! ### CONV -/

/-- R75: Horner's method gives the positional sum, for every base and digit sequence. -/
def Obligations.HornerGivesThePositionalValue : Prop :=
  ∀ (base : Nat) (d : List Byte), digitsValue base d = positional base d

/-- R78: `rep_T(V)` is `[]` for 0 and otherwise the unique sequence with a nonzero first digit, all digits below T, and value
V; its length is the least L with T^L > V. -/
def Obligations.MinimalDigitSequenceIsTheOneOfItsValue : Prop :=
  ∀ (base v : Nat), Legal base →
    minimalDigits base 0 = [] ∧
    (v ≠ 0 → ∀ r : List Byte,
      (r = minimalDigits base v ↔
        r.head? ≠ some 0 ∧ (∀ x ∈ r, x.toNat < base) ∧ positional base r = v)) ∧
    (v ≠ 0 → v < base ^ (minimalDigits base v).length ∧ ∀ k, v < base ^ k → (minimalDigits base v).length ≤ k)

/-- R79: CONV, its checks in the rule's order, each with its code and position; on success the result is the minimal base-T
sequence of the input's base-F value. "The result is longer than OUT_CAP" is said as: the value is at least T^OUT_CAP (R78). -/
def Obligations.ConvFollowsItsRule : Prop :=
  decode 0x00000001 = .command .conv ∧ ∀ s : State, ∃ t, exec .conv s = .next t ∧
    (s.cfg.inCap < s.inLen.toNat → FailedOut s t .badLength 0) ∧
    (s.inLen.toNat ≤ s.cfg.inCap → ¬ Legal s.fromBase.toNat → FailedOut s t .invalidRadix 0) ∧
    (s.inLen.toNat ≤ s.cfg.inCap → Legal s.fromBase.toNat → ¬ Legal s.toBase.toNat → FailedOut s t .invalidRadix 1) ∧
    (s.inLen.toNat ≤ s.cfg.inCap → Legal s.fromBase.toNat → Legal s.toBase.toNat →
      (∀ i < s.inLen.toNat, s.fromBase.toNat ≤ (s.inByte i).toNat →
        (∀ j < i, (s.inByte j).toNat < s.fromBase.toNat) → FailedOut s t .invalidDigit i) ∧
      ((∀ i < s.inLen.toNat, (s.inByte i).toNat < s.fromBase.toNat) →
        (s.toBase.toNat ^ s.cfg.outCap ≤ positional s.fromBase.toNat (input s) → FailedOut s t .outputOverflow 0) ∧
        (positional s.fromBase.toNat (input s) < s.toBase.toNat ^ s.cfg.outCap →
          WroteOut s t (output t) ∧ (output t).head? ≠ some 0 ∧ (∀ x ∈ output t, x.toNat < s.toBase.toNat) ∧
          positional s.toBase.toNat (output t) = positional s.fromBase.toNat (input s))))

/-- R81, law 3: CONV from T to F of a result gives the input with its leading zero digits removed. -/
def Obligations.ConvThereAndBackDropsLeadingZeros : Prop :=
  ∀ s t s' : State, exec .conv s = .next t → t.errCode = .ok →
    s'.cfg = s.cfg → s'.fromBase = s.toBase → s'.toBase = s.fromBase → s'.inLen.toNat = t.outLen.toNat →
    s'.inLen.toNat ≤ s.cfg.inCap → input s' = output t →
    ∃ t', exec .conv s' = .next t' ∧ t'.errCode = .ok ∧ output t' = (input s).dropWhile (· == 0)

/-- R81, law 4: with T ≥ 16 the result never exceeds OUT_CAP, and is at most twice as long as the input. -/
def Obligations.ConvToSixteenOrMoreNeverOverflows : Prop :=
  ∀ s t : State, exec .conv s = .next t → 16 ≤ s.toBase.toNat →
    t.errCode ≠ .outputOverflow ∧ (t.errCode = .ok → t.outLen.toNat ≤ 2 * s.inLen.toNat)

/-! ### SENC and SDEC -/

/-- R96: SENC writes the four digits plus 1 where v < R^4, and fails with VALUE_OUT_OF_RANGE, SAFE unchanged, where v ≥ R^4,
that is, from 0xF817E010 on in V0 and from 0xFC05FC01 on in V1. -/
def Obligations.SencFollowsItsRule : Prop :=
  decode 0x00000002 = .command .senc ∧
  (∀ s : State, s.value.toNat < radixOf s.variant ^ 4 →
    ∃ t, exec .senc s = .next t ∧ t = { completed s .ok 0 with safe := t.safe } ∧
      ∀ k < 4, lane t.safe k = s.value.toNat / radixOf s.variant ^ (3 - k) % radixOf s.variant + 1) ∧
  (∀ s : State, radixOf s.variant ^ 4 ≤ s.value.toNat → exec .senc s = .next (completed s .valueOutOfRange 0)) ∧
  radixOf .v0 ^ 4 = 0xF817E010 ∧ radixOf .v1 ^ 4 = 0xFC05FC01

/-- R97: SDEC reports the least zero byte, then the least byte above R, and otherwise writes the sum of the digits' values. -/
def Obligations.SdecFollowsItsRule : Prop :=
  decode 0x00000003 = .command .sdec ∧ ∀ s : State,
    (∀ k < 4, lane s.safe k = 0 → (∀ j < k, lane s.safe j ≠ 0) →
      exec .sdec s = .next (completed s .malformedValue k)) ∧
    ((∀ k < 4, lane s.safe k ≠ 0) →
      (∀ k < 4, radixOf s.variant ≤ lane s.safe k - 1 → (∀ j < k, lane s.safe j - 1 < radixOf s.variant) →
        exec .sdec s = .next (completed s .invalidDigit k)) ∧
      ((∀ k < 4, lane s.safe k - 1 < radixOf s.variant) →
        ∃ t, exec .sdec s = .next t ∧ t = { completed s .ok 0 with value := t.value } ∧
          t.value.toNat = ((List.range 4).map fun k => (lane s.safe k - 1) * radixOf s.variant ^ (3 - k)).sum))

/-- R98, law 1: SENC then SDEC returns the value, for every encodable value. -/
def Obligations.SencThenSdecReturnsTheValue : Prop :=
  ∀ s t s' : State, s.value.toNat < radixOf s.variant ^ 4 → exec .senc s = .next t →
    s'.safe = t.safe → s'.variant = s.variant →
    ∃ t', exec .sdec s' = .next t' ∧ t'.errCode = .ok ∧ t'.value = s.value

/-- R98, law 2: SDEC then SENC returns the safe length, for every one whose bytes all lie in [1, R]. -/
def Obligations.SdecThenSencReturnsTheSafeLength : Prop :=
  ∀ s t s' : State, (∀ k < 4, 1 ≤ lane s.safe k ∧ lane s.safe k ≤ radixOf s.variant) → exec .sdec s = .next t →
    s'.value = t.value → s'.variant = s.variant →
    ∃ t', exec .senc s' = .next t' ∧ t'.errCode = .ok ∧ t'.safe = s.safe

/-- R98, law 3: no byte SENC writes is 0, and in V0 none is 255. -/
def Obligations.SencWritesNoForbiddenByte : Prop :=
  ∀ s t : State, exec .senc s = .next t → t.errCode = .ok →
    ∀ k < 4, lane t.safe k ≠ 0 ∧ (s.variant = .v0 → lane t.safe k ≠ 255)

/-- R98, law 4: SENC keeps the order of encodable values, read in wire order. -/
def Obligations.SencKeepsTheOrderOfValues : Prop :=
  ∀ s t s' t' : State, s'.variant = s.variant → s.value.toNat < s'.value.toNat →
    s'.value.toNat < radixOf s.variant ^ 4 → exec .senc s = .next t → exec .senc s' = .next t' →
    wireOrder t.safe < wireOrder t'.safe

/-- R98, law 5: CONV of the value's four big-endian bytes from base 256 to base R, padded to four digits with 1 added to each,
gives the bytes SENC writes; for a value SENC rejects, the same CONV gives five digits. -/
def Obligations.SencAgreesWithConv : Prop :=
  ∀ s c : State, c.inLen = 4 → c.fromBase = 256 → c.toBase.toNat = radixOf s.variant →
    (∀ k < 4, c.inByte k = s.value.extractLsb' (24 - 8 * k) 8) →
    ∃ t u, exec .senc s = .next t ∧ exec .conv c = .next u ∧ u.errCode = .ok ∧
      (s.value.toNat < radixOf s.variant ^ 4 → t.errCode = .ok ∧ u.outLen.toNat ≤ 4 ∧
        ∀ k < 4, lane t.safe k =
          ((List.replicate (4 - u.outLen.toNat) (0 : Byte) ++ output u).getD k 0).toNat + 1) ∧
      (radixOf s.variant ^ 4 ≤ s.value.toNat → t.errCode = .valueOutOfRange ∧ u.outLen.toNat = 5)

/-- R99: every length up to the source's largest carrier, 8294400 bytes, is encodable in both variants. -/
def Obligations.CarrierLengthsAreEncodable : Prop :=
  ∀ s : State, s.value.toNat ≤ 8294400 → ∃ t, exec .senc s = .next t ∧ t.errCode = .ok

/-! ### EENC and EDEC -/

/-- R114: EENC fails with BAD_LENGTH where IN_LEN > IN_CAP; otherwise it writes the payload with each byte of E replaced by its
pair, and the output is at most twice as long. -/
def Obligations.EencFollowsItsRule : Prop :=
  decode 0x00000004 = .command .eenc ∧ ∀ s : State, ∃ t, exec .eenc s = .next t ∧
    (s.cfg.inCap < s.inLen.toNat → FailedOut s t .badLength 0) ∧
    (s.inLen.toNat ≤ s.cfg.inCap →
      WroteOut s t ((input s).flatMap (escaped s.variant)) ∧ t.outLen.toNat ≤ 2 * s.inLen.toNat)

/-- R115: EDEC fails with BAD_LENGTH where IN_LEN > IN_CAP; otherwise an input made up of units decodes to what they stand for,
one that meets a bad pair after some units fails with MALFORMED_PAYLOAD at that pair's ESC, and every input is one of the
two. -/
def Obligations.EdecFollowsItsRule : Prop :=
  decode 0x00000005 = .command .edec ∧
  (∀ s : State, ∃ t, exec .edec s = .next t ∧
    (s.cfg.inCap < s.inLen.toNat → FailedOut s t .badLength 0) ∧
    (s.inLen.toNat ≤ s.cfg.inCap →
      (∀ ps, EscapeUnits s.variant ps (input s) → WroteOut s t (ps.map Prod.snd)) ∧
      (∀ ps y tail, EscapeUnits s.variant ps y → input s = y ++ tail → BadPair s.variant tail →
        FailedOut s t .malformedPayload y.length))) ∧
  (∀ (v : Variant) (y : List Byte),
    (∃ ps, EscapeUnits v ps y) ∨ (∃ ps z tail, EscapeUnits v ps z ∧ y = z ++ tail ∧ BadPair v tail))

/-- R116, law 1: EDEC of EENC's output, in the same variant and where it fits into IN, gives the payload back. -/
def Obligations.EencThenEdecReturnsThePayload : Prop :=
  ∀ s t s' : State, s.inLen.toNat ≤ s.cfg.inCap → exec .eenc s = .next t →
    s'.variant = s.variant → s'.inLen.toNat = t.outLen.toNat → s'.inLen.toNat ≤ s'.cfg.inCap → input s' = output t →
    ∃ t', exec .edec s' = .next t' ∧ t'.errCode = .ok ∧ output t' = input s

/-- R116, law 2: the length of EENC's output. -/
def Obligations.EencLengthCountsTheEscapedBytes : Prop :=
  ∀ s t : State, s.inLen.toNat ≤ s.cfg.inCap → exec .eenc s = .next t →
    t.outLen.toNat = s.inLen.toNat + (input s).countP (inE s.variant)

/-- R116, law 3: EENC's output holds no reserved literal, and ESC stands only where a pair starts. -/
def Obligations.EencOutputHoldsNoReservedLiteral : Prop :=
  ∀ s t : State, s.inLen.toNat ≤ s.cfg.inCap → exec .eenc s = .next t →
    (∀ x ∈ output t, x ≠ 0x00 ∧ (s.variant = .v0 → x ≠ 0xFF)) ∧
    ∀ i < t.outLen.toNat, t.outByte i = 0xFE →
      i + 1 < t.outLen.toNat ∧ 1 ≤ (t.outByte (i + 1)).toNat ∧ (t.outByte (i + 1)).toNat ≤ 3

/-- R116, law 4: the output of a concatenation is the concatenation of the outputs. -/
def Obligations.EencOfAConcatenation : Prop :=
  ∀ s t sa ta sb tb : State, s.inLen.toNat ≤ s.cfg.inCap → sa.inLen.toNat ≤ sa.cfg.inCap →
    sb.inLen.toNat ≤ sb.cfg.inCap → sa.variant = s.variant → sb.variant = s.variant →
    input s = input sa ++ input sb → exec .eenc s = .next t → exec .eenc sa = .next ta → exec .eenc sb = .next tb →
    output t = output ta ++ output tb

/-- R117: an input that EDEC decodes, cut after a byte other than ESC, decodes in two pieces to the same bytes; cut after an
ESC, the first piece fails at its last index. -/
def Obligations.EdecInPiecesCutBetweenPairs : Prop :=
  ∀ s t sa sb : State, s.inLen.toNat ≤ s.cfg.inCap → sa.inLen.toNat ≤ sa.cfg.inCap → sb.inLen.toNat ≤ sb.cfg.inCap →
    sa.variant = s.variant → sb.variant = s.variant → exec .edec s = .next t → t.errCode = .ok →
    input s = input sa ++ input sb →
    ((input sa).getLast? ≠ some 0xFE → ∃ ta tb, exec .edec sa = .next ta ∧ exec .edec sb = .next tb ∧
      ta.errCode = .ok ∧ tb.errCode = .ok ∧ output t = output ta ++ output tb) ∧
    ((input sa).getLast? = some 0xFE → ∃ ta, exec .edec sa = .next ta ∧
      FailedOut sa ta .malformedPayload (sa.inLen.toNat - 1))

/-! ### What holds of every command -/

/-- R68, R130, R132, R37: every command answers a next state with BUSY = 0, DONE = 1 and one of its own error codes; where the
code is 0 so is ERR_POS; its inputs, the bases, CTRL, WERR and IN stay; only SDEC writes VALUE and only without an error, only
SENC SAFE and only without an error, and only CONV, EENC and EDEC touch OUT and OUT_LEN, which an error leaves 0. -/
def Obligations.EveryCommandCompletesAndKeepsItsFrame : Prop :=
  ∀ (i : Instr) (s : State), ∃ t, exec i s = .next t ∧
    t = { s with
      value := t.value, safe := t.safe, outLen := t.outLen, outBuf := t.outBuf, draws := t.draws,
      errCode := t.errCode, errPos := t.errPos, done := true, pend := none } ∧
    (t.errCode = .ok → t.errPos = 0) ∧
    (t.value ≠ s.value → i = .sdec ∧ t.errCode = .ok) ∧ (t.safe ≠ s.safe → i = .senc ∧ t.errCode = .ok) ∧
    (i = .nop ∨ i = .senc ∨ i = .sdec → t.outLen = s.outLen ∧ t.outBuf = s.outBuf ∧ t.draws = s.draws) ∧
    (i = .conv ∨ i = .eenc ∨ i = .edec → t.errCode ≠ .ok → t.outLen = 0) ∧
    match i with
    | .nop => t.errCode = .ok
    | .conv => t.errCode ∈ [.ok, .invalidRadix, .invalidDigit, .outputOverflow, .badLength]
    | .senc => t.errCode ∈ [.ok, .valueOutOfRange]
    | .sdec => t.errCode ∈ [.ok, .invalidDigit, .malformedValue]
    | .eenc => t.errCode ∈ [.ok, .badLength]
    | .edec => t.errCode ∈ [.ok, .malformedPayload, .badLength]

/-- R3, R61's columns 'operands read' and 'results written', R81 law 5: a command's result depends only on its own operands.
From any two states in which the operands of that command agree, whatever else they hold (the operands of the other commands
among it), both executions answer a next state and its results are the same. -/
def Obligations.ResultDependsOnlyOnTheOperands : Prop :=
  ∀ (i : Instr) (s s' : State), SameOperands s s' i →
    ∃ t t', exec i s = .next t ∧ exec i s' = .next t' ∧ SameResults t t' i

/-! ### The bus -/

/-- R45: a bus access of a block that accepts accesses is answered by a bus error, with no effect on any state, exactly at a
reserved offset or where it breaks the width or alignment rule (R42 to R44). -/
def Obligations.BusErrorExactlyWhereTheRulesSay : Prop :=
  (∀ (s : State) (off : Offset) (size : AccessSize), s.phase = .ready → s.nextInput = .read off size →
    ∃ t, step s = .next t ∧ (t.response = some .error ↔ ¬ AccessOk s.cfg off.toNat size.bytes) ∧
      (¬ AccessOk s.cfg off.toNat size.bytes → t = { popped s with response := some .error })) ∧
  (∀ (s : State) (off : Offset) (d : BusData), s.phase = .ready → s.nextInput = .write off d →
    ∃ t, step s = .next t ∧ (t.response = some .error ↔ ¬ AccessOk s.cfg off.toNat d.size.bytes) ∧
      (¬ AccessOk s.cfg off.toNat d.size.bytes → t = { popped s with response := some .error }))

/-- The block refuses exactly the bus accesses that come while reset is asserted or after a power loss (U8, U9; entries 8 and
9), and no step ends in a fault (93_implementation_defined.md section 3). -/
def Obligations.StepRefusesOnlyAccessesInResetOrWithoutPower : Prop :=
  ∀ s : State,
    ((∃ r, step s = .refused r) ↔
      s.phase ≠ .ready ∧ ((∃ off size, s.nextInput = .read off size) ∨ ∃ off d, s.nextInput = .write off d)) ∧
    (∀ r, step s ≠ .fault r) ∧
    ((¬ ∃ r, step s = .refused r) → ∃ t, step s = .next t)

/-- R49: a read changes nothing; only the model's own fields move (the list of events, the answer, and, for a read that is
open while busy, the counter of draws). -/
def Obligations.ReadsHaveNoSideEffect : Prop :=
  ∀ (s : State) (off : Offset) (size : AccessSize), s.phase = .ready → s.nextInput = .read off size →
    ∃ t r, step s = .next t ∧ t = { s with inputs := s.inputs.tail, response := some r, draws := t.draws } ∧
      (s.busy = false → t.draws = s.draws)

/-- R24: STATUS as the bus reads it, bit by bit. -/
def Obligations.StatusReadsItsFlagsInPlace : Prop :=
  ∀ s : State, s.phase = .ready → s.nextInput = .read 0x00C .four →
    ∃ w, step s = .next { popped s with response := some (.data (.word w)) } ∧
      w.getLsbD 0 = s.busy ∧ w.getLsbD 1 = s.done ∧ w.getLsbD 2 = (s.errCode != .ok) ∧ w.getLsbD 3 = s.werr ∧
      w.extractLsb' 4 4 = 0 ∧ w.extractLsb' 8 4 = s.errCode.number ∧ w.extractLsb' 12 20 = 0

/-- R21 to R33, R43: what a 4-byte read of each register offset returns while idle. -/
def Obligations.RegisterReadsReturnTheRegisters : Prop :=
  ∀ s : State, s.phase = .ready → s.busy = false →
    ∀ (off : Offset) (w : Word),
      (off, w) ∈ [
        ((0x000 : Offset), (0x52584301 : Word)),
        (0x004, (if s.irqEn then 2 else 0) + (if s.variant = .v1 then 1 else 0)),
        (0x008, 0), (0x010, s.fromBase.setWidth 32), (0x014, s.toBase.setWidth 32), (0x018, s.inLen.setWidth 32),
        (0x01C, s.outLen.setWidth 32), (0x020, s.value), (0x024, s.safe), (0x028, s.errPos.setWidth 32),
        (0x02C, BitVec.ofNat 32 s.cfg.inCap), (0x030, BitVec.ofNat 32 (2 * s.cfg.inCap))] →
      s.nextInput = .read off .four →
      step s = .next { popped s with response := some (.data (.word w)) }

/-- R22, R25 to R27, R29, R30, R39: an idle write of a writable register reaches exactly its field, the reserved bits of the
written word being discarded, and changes nothing else. -/
def Obligations.RegisterWritesReachTheirFieldOnly : Prop :=
  ∀ (s : State) (w : Word), s.phase = .ready → s.busy = false →
    (s.nextInput = .write 0x004 (.word w) → w.getLsbD 31 = false →
      step s = .next { popped s with
        variant := if w.getLsbD 0 then .v1 else .v0, irqEn := w.getLsbD 1, response := some .done }) ∧
    (s.nextInput = .write 0x010 (.word w) →
      step s = .next { popped s with fromBase := BitVec.ofNat 9 (w.toNat % 512), response := some .done }) ∧
    (s.nextInput = .write 0x014 (.word w) →
      step s = .next { popped s with toBase := BitVec.ofNat 9 (w.toNat % 512), response := some .done }) ∧
    (s.nextInput = .write 0x018 (.word w) →
      step s = .next { popped s with inLen := BitVec.ofNat 17 (w.toNat % 131072), response := some .done }) ∧
    (s.nextInput = .write 0x020 (.word w) → step s = .next { popped s with value := w, response := some .done }) ∧
    (s.nextInput = .write 0x024 (.word w) → step s = .next { popped s with safe := w, response := some .done })

/-- R24: a write to STATUS, busy or not, clears DONE and WERR where the written bit is 1 and does nothing else. -/
def Obligations.StatusWriteClearsDoneAndWerr : Prop :=
  ∀ (s : State) (w : Word), s.phase = .ready → s.nextInput = .write 0x00C (.word w) →
    step s = .next { popped s with
      done := s.done && !w.getLsbD 1, werr := s.werr && !w.getLsbD 3, response := some .done }

/-- R46, R47: an idle read of a buffer window returns the bytes little-endian, the byte at the lowest offset lowest; a read of
IN does so while busy as well (R70). -/
def Obligations.BufferReadsAreLittleEndian : Prop :=
  ∀ (s : State) (i : Nat) (off : Offset), s.phase = .ready →
    (∀ (m : Memory), (m = s.inBuf ∧ off.toNat = 0x10000 + i ∧ i < s.cfg.inCap) ∨
        (m = s.outBuf ∧ off.toNat = 0x20000 + i ∧ i < s.cfg.outCap ∧ s.busy = false) →
      (s.nextInput = .read off .one →
        step s = .next { popped s with response := some (.data (.byte (m.read i))) }) ∧
      (s.nextInput = .read off .two → i % 2 = 0 →
        step s = .next { popped s with response := some (.data (.half (m.read (i + 1) ++ m.read i))) }) ∧
      (s.nextInput = .read off .four → i % 4 = 0 →
        step s = .next { popped s with
          response := some (.data (.word (m.read (i + 3) ++ m.read (i + 2) ++ m.read (i + 1) ++ m.read i))) }))

/-- R44, R47: an idle write to the IN window stores the data little-endian at the offset it names and changes no other byte and
no other state. -/
def Obligations.InWindowWritesStoreLittleEndian : Prop :=
  ∀ (s : State) (i : Nat) (off : Offset) (d : BusData), s.phase = .ready → s.busy = false →
    off.toNat = 0x10000 + i → i < s.cfg.inCap → i % d.size.bytes = 0 → s.nextInput = .write off d →
    ∃ t, step s = .next t ∧ t = { popped s with inBuf := t.inBuf, response := some .done } ∧
      (∀ j, j < i ∨ i + d.size.bytes ≤ j → t.inByte j = s.inByte j) ∧
      match d with
      | .byte b => t.inByte i = b
      | .half h => t.inByte i = h.extractLsb' 0 8 ∧ t.inByte (i + 1) = h.extractLsb' 8 8
      | .word w => t.inByte i = w.extractLsb' 0 8 ∧ t.inByte (i + 1) = w.extractLsb' 8 8 ∧
          t.inByte (i + 2) = w.extractLsb' 16 8 ∧ t.inByte (i + 3) = w.extractLsb' 24 8

/-- R66: a CMD write while idle issues the word: PEND, BUSY, DONE, ERRCODE and ERR_POS change and nothing else, whatever DONE
was, and IRQ falls. -/
def Obligations.CmdWriteIssuesTheCommand : Prop :=
  ∀ (s : State) (w : Word), s.phase = .ready → s.busy = false → s.nextInput = .write 0x008 (.word w) →
    ∃ t, step s = .next t ∧
      t = { popped s with pend := some w, done := false, errCode := .ok, errPos := 0, response := some .done } ∧
      t.busy = true ∧ t.err = false ∧ t.irq = false

/-- R69: which writes are dropped while busy, with WERR set and no other effect, and which are not: STATUS writes, soft resets,
and writes to read-only registers and to OUT, which are ignored and do not set WERR. None is a bus error. (That the last two
are ignored while idle as well is `ReadOnlyWritesAreIgnored`.) -/
def Obligations.WritesWhileBusyAreDropped : Prop :=
  ∀ (s : State), s.phase = .ready → s.busy = true →
    (∀ (off : Offset) (w : Word), off ∈ [(0x008 : Offset), 0x010, 0x014, 0x018, 0x020, 0x024] →
      s.nextInput = .write off (.word w) →
      step s = .next { popped s with werr := true, response := some .done }) ∧
    (∀ (w : Word), w.getLsbD 31 = false → s.nextInput = .write 0x004 (.word w) →
      step s = .next { popped s with werr := true, response := some .done }) ∧
    (∀ (off : Offset) (d : BusData), 0x10000 ≤ off.toNat → off.toNat < 0x10000 + s.cfg.inCap →
      off.toNat % d.size.bytes = 0 → s.nextInput = .write off d →
      step s = .next { popped s with werr := true, response := some .done }) ∧
    (∀ (w : Word), s.nextInput = .write 0x00C (.word w) →
      step s = .next { popped s with
        done := s.done && !w.getLsbD 1, werr := s.werr && !w.getLsbD 3, response := some .done }) ∧
    (∀ (w : Word), w.getLsbD 31 = true → s.nextInput = .write 0x004 (.word w) →
      ∃ t, step s = .next t ∧ ResetTo s t .ready ∧ t.response = some .done) ∧
    (∀ (off : Offset) (w : Word), off ∈ [(0x000 : Offset), 0x01C, 0x028, 0x02C, 0x030] →
      s.nextInput = .write off (.word w) → step s = .next { popped s with response := some .done }) ∧
    (∀ (off : Offset) (d : BusData), 0x20000 ≤ off.toNat → off.toNat < 0x20000 + s.cfg.outCap →
      off.toNat % d.size.bytes = 0 → s.nextInput = .write off d →
      step s = .next { popped s with response := some .done })

/-- R45, R69, R21, R28, R31 to R33, R35: writes to read-only registers and to the OUT window are ignored, busy or not. -/
def Obligations.ReadOnlyWritesAreIgnored : Prop :=
  ∀ (s : State), s.phase = .ready →
    (∀ (off : Offset) (w : Word), off ∈ [(0x000 : Offset), 0x01C, 0x028, 0x02C, 0x030] →
      s.nextInput = .write off (.word w) → step s = .next { popped s with response := some .done }) ∧
    (∀ (off : Offset) (d : BusData), 0x20000 ≤ off.toNat → off.toNat < 0x20000 + s.cfg.outCap →
      off.toNat % d.size.bytes = 0 → s.nextInput = .write off d →
      step s = .next { popped s with response := some .done })

/-- R70: while busy a read of OUT_LEN, VALUE, SAFE, ERR_POS or OUT returns a fresh draw of its width; every other location reads
as usual. The draw is the model's free value (entry 5). -/
def Obligations.ReadsWhileBusyReturnADraw : Prop :=
  ∀ (s : State), s.phase = .ready → s.busy = true →
    (∀ (off : Offset), off ∈ [(0x01C : Offset), 0x020, 0x024, 0x028] → s.nextInput = .read off .four →
      step s = .next { popped s with
        draws := s.draws + 1, response := some (.data (.word (Config.freeData s.draws))) }) ∧
    (∀ (off : Offset) (size : AccessSize), 0x20000 ≤ off.toNat → off.toNat < 0x20000 + s.cfg.outCap →
      off.toNat % size.bytes = 0 → s.nextInput = .read off size →
      step s = .next { popped s with
        draws := s.draws + 1, response := some (.data (BusData.ofWord (Config.freeData s.draws) size)) }) ∧
    (∀ (off : Offset) (w : Word),
      (off, w) ∈ [((0x000 : Offset), (0x52584301 : Word)), (0x004, s.ctrlWord), (0x008, 0), (0x00C, s.statusWord),
        (0x010, s.fromBase.setWidth 32), (0x014, s.toBase.setWidth 32), (0x018, s.inLen.setWidth 32),
        (0x02C, BitVec.ofNat 32 s.cfg.inCap), (0x030, BitVec.ofNat 32 s.cfg.outCap)] →
      s.nextInput = .read off .four → step s = .next { popped s with response := some (.data (.word w)) }) ∧
    (∀ (off : Offset) (size : AccessSize), 0x10000 ≤ off.toNat → off.toNat < 0x10000 + s.cfg.inCap →
      off.toNat % size.bytes = 0 → s.nextInput = .read off size →
      step s = .next { popped s with
        response := some (.data (s.inBuf.load (off.toNat - 0x10000) size)) })

/-! ### Reset, interrupt, and what a step can and cannot change -/

/-- R41, R21, R32, R33: the state after reset. -/
def Obligations.ResetStateHasTheSpecsValues : Prop :=
  State.reset.variant = .v0 ∧ State.reset.irqEn = false ∧ State.reset.statusWord = 0 ∧ State.reset.ctrlWord = 0 ∧
  State.reset.fromBase.toNat = 256 ∧ State.reset.toBase.toNat = 254 ∧ State.reset.inLen = 0 ∧
  State.reset.outLen = 0 ∧ State.reset.value = 0 ∧ State.reset.safe = 0 ∧ State.reset.errPos = 0 ∧
  State.reset.pend = none ∧ State.reset.irq = false ∧ State.reset.readReg .id = 0x52584301 ∧
  State.reset.readReg .inCap = 0x00010000 ∧ State.reset.readReg .outCap = 0x00020000 ∧
  (∀ i, ∃ d, State.reset.inByte i = Config.freeByte d i) ∧ ∀ i, ∃ d, State.reset.outByte i = Config.freeByte d i

/-- R150: a CTRL write with bit 31 set is a reset in one step, busy or not, whatever the other bits are; WERR is cleared and not
set by it. -/
def Obligations.SoftResetResetsEverything : Prop :=
  ∀ (s : State) (w : Word), s.phase = .ready → w.getLsbD 31 = true → s.nextInput = .write 0x004 (.word w) →
    ∃ t, step s = .next t ∧ ResetTo s t .ready ∧ t.response = some .done

/-- R149: asserting the reset input resets everything at once; releasing it leaves the block idle and accepting accesses with
every value as it stood. -/
def Obligations.HardResetResetsEverything : Prop :=
  (∀ s : State, s.nextInput = .assertReset → ∃ t, step s = .next t ∧ ResetTo s t .inReset) ∧
  (∀ s : State, s.phase = .inReset → s.nextInput = .releaseReset → step s = .next { popped s with phase := .ready })

/-- R149: while reset is asserted, no event but its release or a power loss changes anything of the block: a further
assertion draws the buffers anew, and the engine takes no step. (The invariant says that the registers then stand at their
reset values.) -/
def Obligations.ResetHoldsTheBlock : Prop :=
  ∀ s t : State, s.Inv → s.phase = .inReset → step s = .next t → s.nextInput ≠ .powerLoss →
    t.atResetValues ∧ (s.nextInput ≠ .releaseReset → t.phase = .inReset)

/-- R151: a running command ends only by its completion or by a reset (or a power loss, R142); where a reset ends it, DONE is 0
afterwards and IRQ does not rise. -/
def Obligations.OnlyCompletionOrResetEndsACommand : Prop :=
  ∀ s t : State, s.phase = .ready → s.busy = true → step s = .next t → t.busy = false →
    (s.nextInput = .engine ∧ t.done = true) ∨
    ((s.nextInput = .assertReset ∨ ∃ w, s.nextInput = .write 0x004 (.word w) ∧ w.getLsbD 31 = true) ∧
      t.done = false ∧ t.irq = false) ∨
    s.nextInput = .powerLoss

/-- R51, R69: between issue and completion no event can change an operand of the pending command. -/
def Obligations.OperandsAreFrozenWhileBusy : Prop :=
  ∀ s t : State, s.phase = .ready → s.busy = true → step s = .next t → t.busy = true → s.nextInput ≠ .powerLoss →
    t.pend = s.pend ∧ t.variant = s.variant ∧ t.fromBase = s.fromBase ∧ t.toBase = s.toBase ∧ t.inLen = s.inLen ∧
    t.value = s.value ∧ t.safe = s.safe ∧ t.inBuf = s.inBuf ∧ t.cfg = s.cfg

/-- R66, R23: only a CMD write issues a command. -/
def Obligations.OnlyACmdWriteStartsACommand : Prop :=
  ∀ s t : State, s.busy = false → step s = .next t → t.busy = true → s.nextInput ≠ .powerLoss →
    s.phase = .ready ∧ ∃ w, s.nextInput = .write 0x008 (.word w) ∧ t.pend = some w

/-- R40, R135: IRQ is IRQ_EN AND DONE; it rises only where a command completes with IRQ_EN = 1 or where IRQ_EN is set while
DONE = 1. -/
def Obligations.IrqRisesOnlyByCompletionOrEnable : Prop :=
  (∀ s : State, s.irq = (s.irqEn && s.done)) ∧
  ∀ s t : State, step s = .next t → s.irq = false → t.irq = true → s.nextInput ≠ .powerLoss →
    (s.nextInput = .engine ∧ s.busy = true ∧ s.irqEn = true) ∨
    (s.done = true ∧ ∃ w, s.nextInput = .write 0x004 (.word w) ∧ w.getLsbD 1 = true)

/-- R24, R157: WERR is set only by a write dropped while busy, and cleared only by a STATUS write with bit 3 set or by a
reset. -/
def Obligations.WerrIsStickyUntilCleared : Prop :=
  ∀ s t : State, step s = .next t → s.nextInput ≠ .powerLoss →
    (s.werr = false → t.werr = true → s.busy = true ∧ ∃ off d, s.nextInput = .write off d) ∧
    (s.werr = true → t.werr = false →
      s.nextInput = .assertReset ∨ (∃ w, s.nextInput = .write 0x00C (.word w) ∧ w.getLsbD 3 = true) ∨
      ∃ w, s.nextInput = .write 0x004 (.word w) ∧ w.getLsbD 31 = true)

/-- R34, R152, R158: an IN byte keeps its value, written or drawn, over every step but a host write that covers it, a reset, or
a power loss. -/
def Obligations.InByteKeepsItsValueUntilWritten : Prop :=
  ∀ (s t : State) (i : Nat), step s = .next t →
    s.nextInput ≠ .powerLoss → s.nextInput ≠ .assertReset →
    (∀ w, s.nextInput = .write 0x004 (.word w) → w.getLsbD 31 = false) →
    (∀ off d, s.nextInput = .write off d → 0x10000 + i < off.toNat ∨ off.toNat + d.size.bytes ≤ 0x10000 + i) →
    t.inByte i = s.inByte i

/-- R35, R160: OUT and OUT_LEN keep their values over every step but the completion of a CONV, EENC or EDEC, a reset, or a power
loss. -/
def Obligations.OutputSurvivesEverythingElse : Prop :=
  ∀ s t : State, step s = .next t →
    s.nextInput ≠ .powerLoss → s.nextInput ≠ .assertReset →
    (∀ w, s.nextInput = .write 0x004 (.word w) → w.getLsbD 31 = false) →
    (s.nextInput = .engine → ∀ w ∈ s.pend, w ≠ encode .conv ∧ w ≠ encode .eenc ∧ w ≠ encode .edec) →
    t.outLen = s.outLen ∧ ∀ i, t.outByte i = s.outByte i

/-- R4, R20, R32, R33: no step changes the parameters. -/
def Obligations.ParametersNeverChange : Prop :=
  ∀ s t : State, step s = .next t → t.cfg = s.cfg ∧ t.cfg.inCap % 4 = 0 ∧ 4 ≤ t.cfg.inCap ∧ t.cfg.inCap ≤ 65536 ∧
    t.cfg.outCap = 2 * t.cfg.inCap

/-- R142 and U9: after a power loss the block takes no access and no engine step, and stays so until a hard reset.
That the assertion alone ends the wait, and not the release of a reset input held over the loss, is the model's choice (entry 15). -/
def Obligations.PowerLossWaitsForAHardReset : Prop :=
  (∀ s : State, s.nextInput = .powerLoss → ∃ t, step s = .next t ∧ t.phase = .powerLost) ∧
  ∀ s t : State, s.phase = .powerLost → step s = .next t → t.phase ≠ .powerLost →
    s.nextInput = .assertReset ∧ ResetTo s t .inReset

/-! ### The invariant, and progress -/

/-- The invariant holds right after reset. -/
def Obligations.ResetStateMeetsTheInvariant : Prop := State.reset.Inv

/-- Every step keeps the invariant: the buffers' canonical form and bounds, fresh draws, DONE, ERRCODE and ERR_POS clear while
busy, ERR_POS an index or 0, OUT listing exactly OUT_LEN result bytes, the registers held at their reset values while reset is
asserted (R24, R34, R35, R66, R68, R131, R149). -/
def Obligations.StepKeepsTheInvariant : Prop :=
  ∀ s t : State, s.Inv → step s = .next t → t.Inv

/-- R71: every issued command completes unless a reset comes first: once the events from outside are used up, one more step
leaves the block idle. The list of events is finite, which is the model's form of weak fairness (entry 1). -/
def Obligations.EveryIssuedCommandCompletes : Prop :=
  (∀ s : State, s.phase = .ready → s.busy = true → s.nextInput = .engine →
    ∃ t, step s = .next t ∧ t.busy = false ∧ t.done = true) ∧
  (∀ s t : State, s.Inv → s.phase ≠ .powerLost → Input.powerLoss ∉ s.inputs →
    Sys2Proof.core.run (s.inputs.length + 1) s = .next t → t.busy = false)
end

