-- ==== Sys2Proof/Laws/Config.lean ====
section
/-! SUPPORT. The legal parameters (00_scope.md rule R4): what the type of the parameters says of IN_CAP and OUT_CAP. -/

namespace Sys2Proof

/-- IN_CAP is at least 4 (R4). -/
theorem Config.four_le_inCap (c : Config) : 4 ≤ c.inCap := by
  unfold Config.inCap
  omega

/-- IN_CAP is at most 65536 (R4). -/
theorem Config.inCap_le (c : Config) : c.inCap ≤ 65536 := by
  have := c.inCapWordsLessOne.isLt
  unfold Config.inCap
  omega

/-- IN_CAP is a multiple of 4 (R4). -/
theorem Config.inCap_mod_four (c : Config) : c.inCap % 4 = 0 := by
  unfold Config.inCap
  omega

/-- OUT_CAP is exactly twice IN_CAP (R4). -/
theorem Config.outCap_eq (c : Config) : c.outCap = 2 * c.inCap := rfl

end Sys2Proof
end

