-- ==== Sys2Proof/Laws/Escape.lean ====
section
/-! SUPPORT. The laws of the escape codec's functions (43_escape_codec.md R111 to R117). -/

namespace Sys2Proof.Machine

/-- The decode map undoes the code table (R113). -/
theorem escapeDecode_of_escapeCode {v : Variant} {x c : Byte} (h : escapeCode v x = some c) :
    escapeDecode v c = some x := by
  revert h
  cases v <;> simp only [escapeCode, escapeDecode] <;> (repeat' split) <;> simp_all <;> rintro rfl <;> simp_all

/-- A byte without a code is not ESC (R112). -/
theorem ne_esc_of_escapeCode_none {v : Variant} {x : Byte} (h : escapeCode v x = none) : x ≠ esc := by
  rintro rfl
  cases v <;> simp [escapeCode, esc] at h

@[simp] theorem escapeEncode_nil (v : Variant) : escapeEncode v [] = [] := rfl

theorem escapeEncode_cons (v : Variant) (x : Byte) (t : List Byte) :
    escapeEncode v (x :: t) = escapeByte v x ++ escapeEncode v t := by simp [escapeEncode]

/-- Encoding a concatenation (R116, law 4). -/
theorem escapeEncode_append (v : Variant) (a b : List Byte) :
    escapeEncode v (a ++ b) = escapeEncode v a ++ escapeEncode v b := by simp [escapeEncode]

theorem escapeByte_length_le (v : Variant) (x : Byte) : (escapeByte v x).length ≤ 2 := by
  unfold escapeByte
  split <;> simp

/-- "Output length ≤ 2× input length" (R114). -/
theorem escapeEncode_length_le (v : Variant) (x : List Byte) : (escapeEncode v x).length ≤ 2 * x.length := by
  induction x with
  | nil => simp
  | cons b t ih =>
    have := escapeByte_length_le v b
    rw [escapeEncode_cons, List.length_append, List.length_cons]
    omega

/-! ### The scan, one pair or byte at a time -/

theorem escapeScan_plain {v : Variant} {x : Byte} (h : x ≠ esc) (i : Nat) (t : List Byte) :
    escapeScan v i (x :: t) = (escapeScan v (i + 1) t).prepend x := by
  cases t with
  | nil => simp [escapeScan, h, Scan.prepend]
  | cons c t => simp [escapeScan, h]

theorem escapeScan_pair {v : Variant} {c b : Byte} (h : escapeDecode v c = some b) (i : Nat) (t : List Byte) :
    escapeScan v i (esc :: c :: t) = (escapeScan v (i + 2) t).prepend b := by
  simp [escapeScan, h]

theorem escapeScan_bad_code {v : Variant} {c : Byte} (h : escapeDecode v c = none) (i : Nat) (t : List Byte) :
    escapeScan v i (esc :: c :: t) = .malformed i := by
  simp [escapeScan, h]

theorem escapeScan_last_esc (v : Variant) (i : Nat) : escapeScan v i [esc] = .malformed i := by simp [escapeScan]

/-- Whether a scan succeeds, and with what bytes, does not depend on the index it starts from. -/
theorem escapeScan_decoded_index {v : Variant} {i : Nat} (j : Nat) {y o : List Byte}
    (h : escapeScan v i y = .decoded o) : escapeScan v j y = .decoded o := by
  induction y using List.twoStepInduction generalizing i j o with
  | nil => simpa [escapeScan] using h
  | singleton x =>
    revert h
    by_cases hx : x = esc <;> simp [escapeScan, hx]
  | cons_cons x c t ih2 ih1 =>
    by_cases hx : x = esc
    · subst x
      cases hc : escapeDecode v c with
      | none => simp [escapeScan_bad_code hc] at h
      | some b =>
        rw [escapeScan_pair hc] at h ⊢
        cases hs : escapeScan v (i + 2) t with
        | malformed p => simp [hs, Scan.prepend] at h
        | decoded o' =>
          rw [ih2 (j + 2) hs]
          rwa [hs] at h
    · rw [escapeScan_plain hx] at h ⊢
      cases hs : escapeScan v (i + 1) (c :: t) with
      | malformed p => simp [hs, Scan.prepend] at h
      | decoded o' =>
        rw [ih1 c (j + 1) hs]
        rwa [hs] at h

/-- A scan decodes at most as many bytes as it consumes (R115: OUT_LEN ≤ n). -/
theorem escapeScan_length_le {v : Variant} {i : Nat} {y o : List Byte} (h : escapeScan v i y = .decoded o) :
    o.length ≤ y.length := by
  induction y using List.twoStepInduction generalizing i o with
  | nil => simp_all [escapeScan]
  | singleton x =>
    revert h
    by_cases hx : x = esc <;> simp [escapeScan, hx]
    rintro rfl
    simp
  | cons_cons x c t ih2 ih1 =>
    by_cases hx : x = esc
    · subst x
      cases hc : escapeDecode v c with
      | none => simp [escapeScan_bad_code hc] at h
      | some b =>
        rw [escapeScan_pair hc] at h
        cases hs : escapeScan v (i + 2) t with
        | malformed p => simp [hs, Scan.prepend] at h
        | decoded o' =>
          have := ih2 hs
          rw [hs, Scan.prepend, Scan.decoded.injEq] at h
          subst o
          simp
          omega
    · rw [escapeScan_plain hx] at h
      cases hs : escapeScan v (i + 1) (c :: t) with
      | malformed p => simp [hs, Scan.prepend] at h
      | decoded o' =>
        have := ih1 c hs
        rw [hs, Scan.prepend, Scan.decoded.injEq] at h
        subst o
        simp_all

/-- The position a failed scan reports is an index of its input (R131). -/
theorem escapeScan_malformed_lt {v : Variant} {i p : Nat} {y : List Byte} (h : escapeScan v i y = .malformed p) :
    i ≤ p ∧ p < i + y.length := by
  induction y using List.twoStepInduction generalizing i p with
  | nil => simp [escapeScan] at h
  | singleton x =>
    revert h
    by_cases hx : x = esc <;> simp [escapeScan, hx]
    omega
  | cons_cons x c t ih2 ih1 =>
    by_cases hx : x = esc
    · subst x
      cases hc : escapeDecode v c with
      | none =>
        rw [escapeScan_bad_code hc, Scan.malformed.injEq] at h
        simp
        omega
      | some b =>
        rw [escapeScan_pair hc] at h
        cases hs : escapeScan v (i + 2) t with
        | decoded o => simp [hs, Scan.prepend] at h
        | malformed q =>
          rw [hs, Scan.prepend, Scan.malformed.injEq] at h
          have := ih2 hs
          simp
          omega
    · rw [escapeScan_plain hx] at h
      cases hs : escapeScan v (i + 1) (c :: t) with
      | decoded o => simp [hs, Scan.prepend] at h
      | malformed q =>
        rw [hs, Scan.prepend, Scan.malformed.injEq] at h
        have := ih1 c hs
        simp at this ⊢
        omega

/-- One byte's encoding is scanned back to the byte. -/
theorem escapeScan_escapeByte (v : Variant) (x : Byte) (i : Nat) (t : List Byte) :
    escapeScan v i (escapeByte v x ++ t) = (escapeScan v (i + (escapeByte v x).length) t).prepend x := by
  unfold escapeByte
  cases h : escapeCode v x with
  | none => exact escapeScan_plain (ne_esc_of_escapeCode_none h) i t
  | some c => exact escapeScan_pair (escapeDecode_of_escapeCode h) i t

/-- An encoding is scanned back to its payload (R116, law 1). -/
theorem escapeScan_escapeEncode (v : Variant) (x : List Byte) (i : Nat) :
    escapeScan v i (escapeEncode v x) = .decoded x := by
  induction x generalizing i with
  | nil => rfl
  | cons b t ih =>
    rw [escapeEncode_cons, escapeScan_escapeByte, ih]
    rfl

/-- An input that decodes, cut in two: cut after a byte other than ESC both pieces decode, cut after an ESC the first
piece is malformed at that ESC (R117). -/
theorem escapeScan_append {v : Variant} {a b o : List Byte} (i : Nat) (h : escapeScan v i (a ++ b) = .decoded o) :
    (a.getLast? ≠ some esc →
      ∃ oa ob, escapeScan v i a = .decoded oa ∧ escapeScan v (i + a.length) b = .decoded ob ∧ o = oa ++ ob) ∧
    (a.getLast? = some esc → escapeScan v i a = .malformed (i + (a.length - 1))) := by
  induction a using List.twoStepInduction generalizing i o with
  | nil => exact ⟨fun _ => ⟨[], o, rfl, by simpa using h, rfl⟩, by simp⟩
  | singleton x =>
    by_cases hx : x = esc
    · subst x
      exact ⟨fun hn => absurd rfl hn, fun _ => by simp [escapeScan_last_esc]⟩
    · rw [List.singleton_append, escapeScan_plain hx] at h
      cases hs : escapeScan v (i + 1) b with
      | malformed p =>
        rw [hs] at h
        cases h
      | decoded ob =>
        rw [hs] at h
        cases h
        exact ⟨fun _ => ⟨[x], ob, by simp [escapeScan, hx], by simp, rfl⟩, fun hc => absurd (by simpa using hc) hx⟩
  | cons_cons x c t ih2 ih1 =>
    by_cases hx : x = esc
    · subst x
      cases hd : escapeDecode v c with
      | none =>
        rw [List.cons_append, List.cons_append, escapeScan_bad_code hd] at h
        cases h
      | some y =>
        rw [List.cons_append, List.cons_append, escapeScan_pair hd] at h
        cases hs : escapeScan v (i + 2) (t ++ b) with
        | malformed p =>
          rw [hs] at h
          cases h
        | decoded o' =>
          rw [hs] at h
          cases h
          obtain ⟨g1, g2⟩ := ih2 (i + 2) hs
          have hce : c ≠ esc := by
            rintro rfl
            revert hd
            cases v <;> simp [escapeDecode, esc]
          cases t with
          | nil =>
            refine ⟨fun _ => ?_, fun hc => absurd (by simpa using hc) hce⟩
            obtain ⟨oa, ob, q1, q2, rfl⟩ := g1 (by simp)
            exact ⟨y :: oa, ob, by rw [escapeScan_pair hd, q1]; rfl, by simpa using q2, rfl⟩
          | cons z t =>
            rw [show (esc :: c :: z :: t).getLast? = (z :: t).getLast? by simp]
            refine ⟨fun hn => ?_, fun hc => ?_⟩
            · obtain ⟨oa, ob, q1, q2, rfl⟩ := g1 hn
              refine ⟨y :: oa, ob, by rw [escapeScan_pair hd, q1]; rfl, ?_, rfl⟩
              rw [← q2]
              congr 1
              simp
              omega
            · rw [escapeScan_pair hd, g2 hc]
              simp [Scan.prepend]
              omega
    · rw [List.cons_append, escapeScan_plain hx] at h
      cases hs : escapeScan v (i + 1) ((c :: t) ++ b) with
      | malformed p =>
        rw [hs] at h
        cases h
      | decoded o' =>
        rw [hs] at h
        cases h
        obtain ⟨g1, g2⟩ := ih1 c (i + 1) hs
        rw [show (x :: c :: t).getLast? = (c :: t).getLast? by simp]
        refine ⟨fun hn => ?_, fun hc => ?_⟩
        · obtain ⟨oa, ob, q1, q2, rfl⟩ := g1 hn
          refine ⟨x :: oa, ob, by rw [escapeScan_plain hx, q1]; rfl, ?_, rfl⟩
          rw [← q2]
          congr 1
          simp
          omega
        · rw [escapeScan_plain hx, g2 hc]
          simp [Scan.prepend]
          omega

end Sys2Proof.Machine
end

