-- ==== Sys2Proof/Laws/Memory.lean ====
section
/-! SUPPORT. The laws of the buffers: a read after a write, and that every buffer operation keeps the canonical form and
the bounds. -/

namespace Sys2Proof.Machine

/-! ### Rising lists -/

theorem risingFrom_mono {lo lo' : Nat} (h : lo' ≤ lo) {l : List Host.Cell} (hl : risingFrom lo l = true) :
    risingFrom lo' l = true := by
  cases l with
  | nil => rfl
  | cons c t =>
    obtain ⟨i, b⟩ := c
    simp only [risingFrom, Bool.and_eq_true, decide_eq_true_eq] at hl ⊢
    exact ⟨h.trans hl.1, hl.2⟩

theorem lookupCell_of_lt {lo i : Nat} {l : List Host.Cell} (hl : risingFrom lo l = true) (h : i < lo) :
    lookupCell i l = none := by
  induction l generalizing lo with
  | nil => rfl
  | cons c t ih =>
    obtain ⟨j, b⟩ := c
    simp only [risingFrom, Bool.and_eq_true, decide_eq_true_eq] at hl
    rw [lookupCell, if_neg (by omega)]
    exact ih hl.2 (by omega)

theorem risingFrom_insertCell {lo i : Nat} {b : Byte} {l : List Host.Cell} (hl : risingFrom lo l = true)
    (h : lo ≤ i) : risingFrom lo (insertCell i b l) = true := by
  induction l generalizing lo with
  | nil => simp [insertCell, risingFrom, h]
  | cons c t ih =>
    obtain ⟨j, c⟩ := c
    simp only [risingFrom, Bool.and_eq_true, decide_eq_true_eq] at hl
    unfold insertCell
    split
    · simp only [risingFrom, Bool.and_eq_true, decide_eq_true_eq]
      exact ⟨h, by omega, hl.2⟩
    · split
      · subst j
        simp only [risingFrom, Bool.and_eq_true, decide_eq_true_eq]
        exact hl
      · simp only [risingFrom, Bool.and_eq_true, decide_eq_true_eq]
        exact ⟨hl.1, ih hl.2 (by omega)⟩

/-- A lookup after an insertion. -/
theorem lookupCell_insertCell (i j : Nat) (b : Byte) (l : List Host.Cell) :
    lookupCell j (insertCell i b l) = if j = i then some b else lookupCell j l := by
  induction l with
  | nil => simp [insertCell, lookupCell]
  | cons c t ih =>
    obtain ⟨k, c⟩ := c
    unfold insertCell
    split
    · simp [lookupCell]
    · split
      · subst k
        by_cases h : j = i <;> simp [lookupCell, h]
      · by_cases h : j = k
        · subst j
          simp [lookupCell, show k ≠ i by omega]
        · simp [lookupCell, h, ih]

theorem mem_insertCell {i : Nat} {b : Byte} {l : List Host.Cell} {c : Host.Cell} (h : c ∈ insertCell i b l) :
    c = (i, b) ∨ c ∈ l := by
  induction l with
  | nil => simpa [insertCell] using h
  | cons d t ih =>
    obtain ⟨j, d⟩ := d
    unfold insertCell at h
    split at h
    · simpa using h
    · split at h
      · simp only [List.mem_cons] at h ⊢
        tauto
      · simp only [List.mem_cons] at h ⊢
        rcases h with h | h
        · exact .inr (.inl h)
        · rcases ih h with h | h <;> tauto

/-- Two rising lists with the same lookups are equal: equal contents are equal data (entry 3). -/
theorem cells_ext {lo : Nat} {l l' : List Host.Cell} (h : risingFrom lo l = true) (h' : risingFrom lo l' = true)
    (he : ∀ i, lookupCell i l = lookupCell i l') : l = l' := by
  induction l generalizing lo l' with
  | nil =>
    cases l' with
    | nil => rfl
    | cons c t =>
      have := he c.1
      simp [lookupCell] at this
  | cons c t ih =>
    obtain ⟨i, b⟩ := c
    cases l' with
    | nil =>
      have := he i
      simp [lookupCell] at this
    | cons c' t' =>
      obtain ⟨j, b'⟩ := c'
      simp only [risingFrom, Bool.and_eq_true, decide_eq_true_eq] at h h'
      have hij : i = j := by
        by_contra hne
        rcases Nat.lt_or_gt_of_ne hne with hlt | hlt
        · have := he i
          rw [lookupCell, if_pos rfl, lookupCell, if_neg hne, lookupCell_of_lt h'.2 (by omega)] at this
          cases this
        · have := he j
          rw [lookupCell, if_neg (Ne.symm hne), lookupCell_of_lt h.2 (by omega), lookupCell, if_pos rfl] at this
          cases this
      subst j
      have hb : b = b' := by simpa [lookupCell] using he i
      subst b'
      congr 1
      refine ih h.2 h'.2 fun k => ?_
      have hk := he k
      by_cases hki : k = i
      · subst k
        rw [lookupCell_of_lt h.2 (by omega), lookupCell_of_lt h'.2 (by omega)]
      · simpa [lookupCell, hki] using hk

/-! ### A sequence laid out from an index -/

theorem risingFrom_cellsFrom (i : Nat) (o : List Byte) : risingFrom i (cellsFrom i o) = true := by
  induction o generalizing i with
  | nil => rfl
  | cons b t ih => simp [cellsFrom, risingFrom, ih]

theorem cellsFrom_indexes (i : Nat) (o : List Byte) : (cellsFrom i o).map Prod.fst = List.range' i o.length := by
  induction o generalizing i with
  | nil => rfl
  | cons b t ih => simp [cellsFrom, List.range'_succ, ih]

theorem lookupCell_cellsFrom (i j : Nat) (o : List Byte) :
    lookupCell (i + j) (cellsFrom i o) = o[j]? := by
  induction o generalizing i j with
  | nil => rfl
  | cons b t ih =>
    cases j with
    | zero => simp [cellsFrom, lookupCell]
    | succ j =>
      rw [cellsFrom, lookupCell, if_neg (by omega), show i + (j + 1) = i + 1 + j by omega, ih]
      rfl

/-! ### Buffers -/

/-- A read after a write. -/
theorem Memory.read_write (m : Memory) (i j : Nat) (b : Byte) :
    (m.write i b).read j = if j = i then b else m.read j := by
  unfold Memory.read Memory.write
  simp only [lookupCell_insertCell]
  by_cases h : j = i <;> simp [h]

@[simp] theorem Memory.write_draw (m : Memory) (i : Nat) (b : Byte) : (m.write i b).draw = m.draw := rfl

@[simp] theorem Memory.drawn_draw (d : Nat) : (Memory.drawn d).draw = d := rfl

@[simp] theorem Memory.drawn_cells (d : Nat) : (Memory.drawn d).cells = [] := rfl

@[simp] theorem Memory.holding_draw (d : Nat) (o : List Byte) : (Memory.holding d o).draw = d := rfl

@[simp] theorem Memory.holding_cells (d : Nat) (o : List Byte) : (Memory.holding d o).cells = cellsFrom 0 o := rfl

/-- Every byte of a drawn buffer is the draw's. -/
@[simp] theorem Memory.read_drawn (d i : Nat) : (Memory.drawn d).read i = Config.freeByte d i := rfl

/-- A byte of a buffer that holds a result: the result's, and beyond its length the draw's (R35). -/
theorem Memory.read_holding (d : Nat) (o : List Byte) (i : Nat) :
    (Memory.holding d o).read i = (o[i]?).getD (Config.freeByte d i) := by
  have h := lookupCell_cellsFrom 0 i o
  rw [Nat.zero_add] at h
  unfold Memory.read Memory.holding
  rw [h]
  cases o[i]? <;> rfl

theorem Memory.wf_write {m : Memory} (h : m.wf = true) (i : Nat) (b : Byte) : (m.write i b).wf = true :=
  risingFrom_insertCell h (Nat.zero_le i)

theorem Memory.within_write {cap : Nat} {m : Memory} (h : m.within cap = true) {i : Nat} (hi : i < cap) (b : Byte) :
    (m.write i b).within cap = true := by
  unfold Memory.within at h ⊢
  rw [List.all_eq_true] at h ⊢
  intro c hc
  rcases mem_insertCell hc with rfl | hc
  · simpa using hi
  · exact h c hc

@[simp] theorem Memory.wf_drawn (d : Nat) : (Memory.drawn d).wf = true := rfl

@[simp] theorem Memory.within_drawn (cap d : Nat) : (Memory.drawn d).within cap = true := rfl

@[simp] theorem Memory.wf_holding (d : Nat) (o : List Byte) : (Memory.holding d o).wf = true :=
  risingFrom_cellsFrom 0 o

theorem Memory.within_holding {cap d : Nat} {o : List Byte} (h : o.length ≤ cap) :
    (Memory.holding d o).within cap = true := by
  unfold Memory.within
  rw [List.all_eq_true]
  intro c hc
  have hm : c.1 ∈ (cellsFrom 0 o).map Prod.fst := List.mem_map_of_mem hc
  rw [cellsFrom_indexes, List.mem_range'_1] at hm
  simp only [decide_eq_true_eq]
  omega

@[simp] theorem Memory.store_draw (m : Memory) (i : Nat) (d : BusData) : (m.store i d).draw = m.draw := by
  cases d <;> rfl

theorem Memory.wf_store {m : Memory} (h : m.wf = true) (i : Nat) (d : BusData) : (m.store i d).wf = true := by
  cases d <;> simp only [Memory.store] <;> repeat first | exact h | apply Memory.wf_write

theorem Memory.within_store {cap : Nat} {m : Memory} (h : m.within cap = true) {i : Nat} {d : BusData}
    (hi : i + d.size.bytes ≤ cap) : (m.store i d).within cap = true := by
  cases d <;> simp only [Memory.store, BusData.size, AccessSize.bytes] at hi ⊢ <;>
    repeat first | exact h | omega | apply Memory.within_write

/-- A store leaves every byte outside the stored ones as it was (R44, R47). -/
theorem Memory.read_store_outside (m : Memory) {i j : Nat} {d : BusData} (h : j < i ∨ i + d.size.bytes ≤ j) :
    (m.store i d).read j = m.read j := by
  cases d <;> simp only [Memory.store, BusData.size, AccessSize.bytes, Memory.read_write] at h ⊢ <;>
    repeat rw [if_neg (by omega)]

/-- The two byte lanes of a half make it up (R47). -/
theorem lanes_half (h : BitVec 16) : h.extractLsb' 8 8 ++ h.extractLsb' 0 8 = h := by
  apply BitVec.eq_of_getLsbD_eq
  intro k hk
  simp only [BitVec.getLsbD_append, BitVec.getLsbD_extractLsb']
  by_cases h8 : k < 8
  · simp [h8]
  · simp [h8, show k - 8 < 8 by omega, show 8 + (k - 8) = k by omega]

/-- The four byte lanes of a word make it up (R47). -/
theorem lanes_word (w : BitVec 32) :
    w.extractLsb' 24 8 ++ w.extractLsb' 16 8 ++ w.extractLsb' 8 8 ++ w.extractLsb' 0 8 = w := by
  apply BitVec.eq_of_getLsbD_eq
  intro k hk
  simp only [BitVec.getLsbD_append, BitVec.getLsbD_extractLsb']
  by_cases h8 : k < 8
  · simp [h8]
  by_cases h16 : k < 16
  · simp [h8, show k - 8 < 8 by omega, show 8 + (k - 8) = k by omega]
  by_cases h24 : k < 24
  · simp [h8, show ¬ k - 8 < 8 by omega, show k - 8 - 8 < 8 by omega, show 16 + (k - 8 - 8) = k by omega]
  · simp [h8, show ¬ k - 8 < 8 by omega, show ¬ k - 8 - 8 < 8 by omega,
      show k - 8 - 8 - 8 < 8 by omega, show 24 + (k - 8 - 8 - 8) = k by omega]

/-- A load of what was just stored at the same place gives it back (R47). -/
theorem Memory.load_store (m : Memory) (i : Nat) (d : BusData) : (m.store i d).load i d.size = d := by
  cases d with
  | byte b => simp [Memory.store, Memory.load, BusData.size, Memory.read_write]
  | half h => simp [Memory.store, Memory.load, BusData.size, Memory.read_write, lanes_half]
  | word w => simp [Memory.store, Memory.load, BusData.size, Memory.read_write, lanes_word]

/-! ### Byte sequences of a buffer -/

@[simp] theorem Memory.bytes_length (m : Memory) (n : Nat) : (m.bytes n).length = n := by simp [Memory.bytes]

theorem Memory.bytes_getElem (m : Memory) {n i : Nat} (h : i < (m.bytes n).length) : (m.bytes n)[i] = m.read i := by
  simp [Memory.bytes]

/-- The bytes of a buffer that holds a result are the result (R35). -/
@[simp] theorem Memory.bytes_holding (d : Nat) (o : List Byte) : (Memory.holding d o).bytes o.length = o := by
  apply List.ext_getElem
  · simp
  · intro i h _
    rw [Memory.bytes_getElem, Memory.read_holding]
    simp_all

end Sys2Proof.Machine
end

