-- ==== Sys2Proof/Laws/Radix.lean ====
section
/-! SUPPORT. The laws of the radix converter's two functions (41_radix_converter.md R75, R78, R81): the value of a digit
sequence, and the minimal digit sequence of a value. -/

namespace Sys2Proof.Machine

/-- Digits below the base and no leading zero: what R78 asks of a minimal digit sequence. -/
def MinimalFor (base : Nat) (d : List Byte) : Prop := (∀ x ∈ d, x.toNat < base) ∧ d.head? ≠ some 0

/-! ### The value of a digit sequence -/

theorem digitsValue_foldl (base acc : Nat) (d : List Byte) :
    d.foldl (fun a x => a * base + x.toNat) acc = acc * base ^ d.length + digitsValue base d := by
  induction d generalizing acc with
  | nil => simp [digitsValue]
  | cons x t ih =>
    have hd : digitsValue base (x :: t) = x.toNat * base ^ t.length + digitsValue base t := by
      rw [digitsValue, List.foldl_cons, ih]
      simp
    rw [List.foldl_cons, ih, hd, List.length_cons, pow_succ]
    ring

@[simp] theorem digitsValue_nil (base : Nat) : digitsValue base [] = 0 := rfl

/-- Element 0 is the most significant digit (R75). -/
theorem digitsValue_cons (base : Nat) (x : Byte) (d : List Byte) :
    digitsValue base (x :: d) = x.toNat * base ^ d.length + digitsValue base d := by
  rw [digitsValue, List.foldl_cons, digitsValue_foldl]
  simp

theorem digitsValue_append (base : Nat) (d e : List Byte) :
    digitsValue base (d ++ e) = digitsValue base d * base ^ e.length + digitsValue base e := by
  rw [digitsValue, List.foldl_append, digitsValue_foldl]
  rfl

theorem digitsValue_lt {base : Nat} {d : List Byte} (h : ∀ x ∈ d, x.toNat < base) :
    digitsValue base d < base ^ d.length := by
  induction d with
  | nil => simp
  | cons x t ih =>
    rw [digitsValue_cons, List.length_cons, pow_succ]
    have hx := h x (by simp)
    have ht := ih fun y hy => h y (by simp [hy])
    calc x.toNat * base ^ t.length + digitsValue base t
        < x.toNat * base ^ t.length + base ^ t.length := by omega
      _ = (x.toNat + 1) * base ^ t.length := by ring
      _ ≤ base * base ^ t.length := Nat.mul_le_mul_right _ hx
      _ = base ^ t.length * base := by ring

/-- A sequence with a nonzero leading digit has a value of its full length. -/
theorem le_digitsValue {base : Nat} {x : Byte} {d : List Byte} (hx : x ≠ 0) :
    base ^ d.length ≤ digitsValue base (x :: d) := by
  rw [digitsValue_cons]
  have : 1 ≤ x.toNat := by
    rcases Nat.eq_zero_or_pos x.toNat with h | h
    · exact absurd (BitVec.eq_of_toNat_eq (by simpa using h)) hx
    · exact h
  nlinarith [Nat.zero_le (digitsValue base d), Nat.zero_le (base ^ d.length)]

/-! ### The minimal digit sequence -/

theorem minimalDigitsLoop_acc (base fuel v : Nat) (acc : List Byte) :
    minimalDigitsLoop base fuel v acc = minimalDigitsLoop base fuel v [] ++ acc := by
  induction fuel generalizing v acc with
  | zero => rfl
  | succ n ih =>
    unfold minimalDigitsLoop
    split
    · rfl
    · rw [ih, ih (acc := [_])]
      simp

theorem minimalDigitsLoop_succ {base n v : Nat} (hv : v ≠ 0) :
    minimalDigitsLoop base (n + 1) v [] =
      minimalDigitsLoop base n (v / base) [] ++ [BitVec.ofNat 8 (v % base)] := by
  rw [minimalDigitsLoop, if_neg hv, minimalDigitsLoop_acc]

theorem digit_toNat {base v : Nat} (h : 2 ≤ base) (h' : base ≤ 256) :
    (BitVec.ofNat 8 (v % base)).toNat = v % base := by
  have : v % base < base := Nat.mod_lt _ (by omega)
  simp only [BitVec.toNat_ofNat]
  omega

theorem digitsValue_loop {base n v : Nat} (h : 2 ≤ base) (h' : base ≤ 256) (hv : v < 2 ^ n) :
    digitsValue base (minimalDigitsLoop base n v []) = v := by
  induction n generalizing v with
  | zero => simp_all [minimalDigitsLoop]
  | succ n ih =>
    by_cases h0 : v = 0
    · simp [minimalDigitsLoop, h0]
    · rw [minimalDigitsLoop_succ h0, digitsValue_append, ih, digitsValue_cons, digit_toNat h h']
      · simp only [List.length_singleton, pow_one, List.length_nil, pow_zero, mul_one, digitsValue_nil, Nat.add_zero]
        rw [Nat.mul_comm]
        exact Nat.div_add_mod v base
      · rw [Nat.div_lt_iff_lt_mul (by omega)]
        calc v < 2 ^ n * 2 := by rw [← pow_succ]; exact hv
          _ ≤ 2 ^ n * base := Nat.mul_le_mul_left _ h

theorem minimalDigitsLoop_minimal {base n v : Nat} (h : 2 ≤ base) (h' : base ≤ 256) (hv : v < 2 ^ n) :
    MinimalFor base (minimalDigitsLoop base n v []) := by
  induction n generalizing v with
  | zero => simp [minimalDigitsLoop, MinimalFor]
  | succ n ih =>
    by_cases h0 : v = 0
    · simp [minimalDigitsLoop, h0, MinimalFor]
    · have hlt : v / base < 2 ^ n := by
        rw [Nat.div_lt_iff_lt_mul (by omega)]
        calc v < 2 ^ n * 2 := by rw [← pow_succ]; exact hv
          _ ≤ 2 ^ n * base := Nat.mul_le_mul_left _ h
      rw [minimalDigitsLoop_succ h0]
      obtain ⟨hd, hh⟩ := ih hlt
      refine ⟨fun x hx => ?_, ?_⟩
      · rw [List.mem_append, List.mem_singleton] at hx
        rcases hx with hx | rfl
        · exact hd x hx
        · rw [digit_toNat h h']
          exact Nat.mod_lt _ (by omega)
      · by_cases hq : v / base = 0
        · have hz : minimalDigitsLoop base n (v / base) [] = [] := by
            rw [hq]
            cases n <;> simp [minimalDigitsLoop]
          rw [hz]
          intro hc
          have : v % base = 0 := by
            rw [← digit_toNat (v := v) h h']
            simp only [List.nil_append, List.head?_cons, Option.some.injEq] at hc
            rw [hc]
            rfl
          have := Nat.div_add_mod v base
          rw [hq] at this
          omega
        · cases hl : minimalDigitsLoop base n (v / base) [] with
          | nil =>
            have := digitsValue_loop h h' hlt
            rw [hl] at this
            exact absurd this.symm hq
          | cons y t =>
            rw [hl] at hh
            simpa using hh

/-- `rep_T(V)` has the value V (R78). -/
theorem digitsValue_minimalDigits {base v : Nat} (h : 2 ≤ base) (h' : base ≤ 256) :
    digitsValue base (minimalDigits base v) = v :=
  digitsValue_loop h h' Nat.lt_log2_self

/-- `rep_T(V)` is minimal (R78). -/
theorem minimalDigits_minimal {base v : Nat} (h : 2 ≤ base) (h' : base ≤ 256) :
    MinimalFor base (minimalDigits base v) :=
  minimalDigitsLoop_minimal h h' Nat.lt_log2_self

/-- The length of a minimal digit sequence, from its value alone (R78). -/
theorem MinimalFor.length_le_iff {base : Nat} {d : List Byte} (h : 2 ≤ base) (hd : MinimalFor base d) (k : Nat) :
    d.length ≤ k ↔ digitsValue base d < base ^ k := by
  constructor
  · intro hk
    exact (digitsValue_lt hd.1).trans_le (Nat.pow_le_pow_right (by omega) hk)
  · intro hv
    cases d with
    | nil => simp
    | cons x t =>
      have hx : x ≠ 0 := fun hc => hd.2 (by simp [hc])
      have := (le_digitsValue (base := base) (d := t) hx).trans_lt hv
      rw [Nat.pow_lt_pow_iff_right (by omega)] at this
      simpa using this

/-- Two digit sequences of one length with digits below the base and the same value are equal. -/
theorem digitsValue_inj {base : Nat} {d e : List Byte} (hl : d.length = e.length)
    (hd : ∀ x ∈ d, x.toNat < base) (he : ∀ x ∈ e, x.toNat < base) (hv : digitsValue base d = digitsValue base e) :
    d = e := by
  induction d generalizing e with
  | nil => exact (List.length_eq_zero_iff.mp hl.symm).symm
  | cons x t ih =>
    cases e with
    | nil => simp at hl
    | cons y u =>
      have hlu : t.length = u.length := by simpa using hl
      rw [digitsValue_cons, digitsValue_cons, hlu] at hv
      have ht := digitsValue_lt (d := t) fun z hz => hd z (by simp [hz])
      have hu := digitsValue_lt (d := u) fun z hz => he z (by simp [hz])
      rw [hlu] at ht
      have hxy : x.toNat = y.toNat := by
        have h1 : (x.toNat * base ^ u.length + digitsValue base t) / base ^ u.length =
            (y.toNat * base ^ u.length + digitsValue base u) / base ^ u.length := by rw [hv]
        have hpos : 0 < base ^ u.length := by omega
        rwa [Nat.mul_comm, Nat.mul_add_div hpos, Nat.div_eq_of_lt ht, Nat.mul_comm, Nat.mul_add_div hpos,
          Nat.div_eq_of_lt hu] at h1
      have hx : x = y := BitVec.eq_of_toNat_eq hxy
      subst x
      rw [ih hlu (fun z hz => hd z (by simp [hz])) (fun z hz => he z (by simp [hz])) (by omega)]

/-- The minimal digit sequence of a value is unique (R78). -/
theorem MinimalFor.eq_minimalDigits {base : Nat} {d : List Byte} (h : 2 ≤ base) (h' : base ≤ 256)
    (hd : MinimalFor base d) : d = minimalDigits base (digitsValue base d) := by
  have hm := minimalDigits_minimal (v := digitsValue base d) h h'
  have hv := digitsValue_minimalDigits (v := digitsValue base d) h h'
  refine digitsValue_inj (Nat.le_antisymm ?_ ?_) hd.1 hm.1 hv.symm
  · have hlt := digitsValue_lt hm.1
    rw [hv] at hlt
    exact (hd.length_le_iff h _).mpr hlt
  · have hlt := digitsValue_lt hd.1
    rw [← hv] at hlt
    exact (hm.length_le_iff h _).mpr hlt

/-- Leading zero digits do not change a value. -/
theorem digitsValue_dropWhile (base : Nat) (d : List Byte) :
    digitsValue base (d.dropWhile (· == 0#8)) = digitsValue base d := by
  induction d with
  | nil => rfl
  | cons x t ih =>
    by_cases hx : x = 0#8
    · simp [hx, ih, digitsValue_cons]
    · simp [hx]

/-- Removing the leading zero digits makes a legal digit sequence minimal (R81, law 3). -/
theorem minimalFor_dropWhile {base : Nat} {d : List Byte} (hd : ∀ x ∈ d, x.toNat < base) :
    MinimalFor base (d.dropWhile (· == 0#8)) := by
  refine ⟨fun x hx => hd x ((List.dropWhile_sublist _).subset hx), fun hc => ?_⟩
  have := List.head?_dropWhile_not (· == 0#8) d
  rw [hc] at this
  simp at this

/-! ### The digit check -/

theorem firstIllegalDigit_eq_none {base : Nat} {d : List Byte} :
    firstIllegalDigit base d = none ↔ ∀ x ∈ d, x.toNat < base := by
  simp [firstIllegalDigit, List.findIdx?_eq_none_iff]

/-- The digit check finds the least index of an illegal digit (R77, R131). -/
theorem firstIllegalDigit_eq_some {base i : Nat} {d : List Byte} :
    firstIllegalDigit base d = some i ↔
      ∃ h : i < d.length, base ≤ d[i].toNat ∧ ∀ (j : Nat) (hj : j < i), d[j].toNat < base := by
  simp [firstIllegalDigit, List.findIdx?_eq_some_iff_getElem]

theorem legalRadix_iff {r : Nat} : legalRadix r = true ↔ 2 ≤ r ∧ r ≤ 256 := by simp [legalRadix]

end Sys2Proof.Machine
end

