-- ==== Sys2Proof/Laws/Safe.lean ====
section
/-! SUPPORT. The laws of the safe re-mapper's functions (42_safe_remapper.md R90 to R98). -/

namespace Sys2Proof.Machine

theorem Variant.radix_pos (v : Variant) : 0 < v.radix := by cases v <;> decide

theorem Variant.radix_le (v : Variant) : v.radix ≤ 255 := by cases v <;> decide

theorem Variant.le_radix (v : Variant) : 254 ≤ v.radix := by cases v <;> decide

/-- The radix to the fourth power is below 2^32 (R91). -/
theorem Variant.radix_pow_lt (v : Variant) : v.radix ^ 4 < 2 ^ 32 := by cases v <;> decide

/-! ### The four bytes of a safe length -/

@[simp] theorem safeByte_safeWord_zero (a b c d : Byte) : safeByte (safeWord a b c d) 0 = a := by
  apply BitVec.eq_of_getLsbD_eq
  intro i hi
  simp only [safeByte, safeWord, BitVec.getLsbD_append, BitVec.getLsbD_extractLsb']
  simp [hi]

@[simp] theorem safeByte_safeWord_one (a b c d : Byte) : safeByte (safeWord a b c d) 1 = b := by
  apply BitVec.eq_of_getLsbD_eq
  intro i hi
  simp only [safeByte, safeWord, BitVec.getLsbD_append, BitVec.getLsbD_extractLsb']
  simp [hi]

@[simp] theorem safeByte_safeWord_two (a b c d : Byte) : safeByte (safeWord a b c d) 2 = c := by
  apply BitVec.eq_of_getLsbD_eq
  intro i hi
  simp only [safeByte, safeWord, BitVec.getLsbD_append, BitVec.getLsbD_extractLsb']
  simp [hi,
    show ¬ 16 + i < 8 by omega, show ¬ 16 + i - 8 < 8 by omega, show 16 + i - 8 - 8 = i by omega]

@[simp] theorem safeByte_safeWord_three (a b c d : Byte) : safeByte (safeWord a b c d) 3 = d := by
  apply BitVec.eq_of_getLsbD_eq
  intro i hi
  simp only [safeByte, safeWord, BitVec.getLsbD_append, BitVec.getLsbD_extractLsb']
  simp [hi,
    show ¬ 24 + i < 8 by omega, show ¬ 24 + i - 8 < 8 by omega, show ¬ 24 + i - 8 - 8 < 8 by omega,
    show 24 + i - 8 - 8 - 8 = i by omega]

/-- A word is made up of its four safe bytes (R30). -/
theorem safeWord_safeByte (w : Word) :
    safeWord (safeByte w 0) (safeByte w 1) (safeByte w 2) (safeByte w 3) = w := by
  apply BitVec.eq_of_getLsbD_eq
  intro i hi
  simp only [safeWord, safeByte, BitVec.getLsbD_append, BitVec.getLsbD_extractLsb']
  by_cases h8 : i < 8
  · simp [h8]
  by_cases h16 : i < 16
  · simp [h8, show i - 8 < 8 by omega, show 8 + (i - 8) = i by omega]
  by_cases h24 : i < 24
  · simp [h8, show ¬ i - 8 < 8 by omega, show i - 8 - 8 < 8 by omega, show 16 + (i - 8 - 8) = i by omega]
  · simp [h8, show ¬ i - 8 < 8 by omega, show ¬ i - 8 - 8 < 8 by omega, show i - 8 - 8 - 8 < 8 by omega,
      show 24 + (i - 8 - 8 - 8) = i by omega]

/-! ### Encoding and decoding -/

/-- An encoded byte is its digit plus 1 (R93): the sum does not leave a byte. -/
theorem encodedByte_toNat (var : Variant) (v k : Nat) :
    (encodedByte var.radix v k).toNat = v / var.radix ^ (3 - k) % var.radix + 1 := by
  have h1 := Nat.mod_lt (v / var.radix ^ (3 - k)) var.radix_pos
  have h2 := var.radix_le
  simp only [encodedByte, BitVec.toNat_ofNat]
  omega

/-- Four base-R digits make up a value below R^4 (R91, R93). -/
theorem four_digits (r v : Nat) (h : v < r ^ 4) :
    v / r ^ 3 % r * r ^ 3 + v / r ^ 2 % r * r ^ 2 + v / r % r * r + v % r = v := by
  rcases Nat.eq_zero_or_pos r with rfl | hr
  · simp at h
  have h3 : v / r ^ 3 < r := by
    rw [Nat.div_lt_iff_lt_mul (pow_pos hr 3), ← pow_succ']
    exact h
  have e1 := Nat.div_add_mod v r
  have e2 := Nat.div_add_mod (v / r) r
  have e3 := Nat.div_add_mod (v / r ^ 2) r
  have d2 : v / r / r = v / r ^ 2 := by rw [Nat.div_div_eq_div_mul, pow_two]
  have d3 : v / r ^ 2 / r = v / r ^ 3 := by rw [Nat.div_div_eq_div_mul, ← pow_succ]
  rw [d2] at e2
  rw [d3] at e3
  rw [Nat.mod_eq_of_lt h3]
  calc v / r ^ 3 * r ^ 3 + v / r ^ 2 % r * r ^ 2 + v / r % r * r + v % r
      = r * (r * (r * (v / r ^ 3) + v / r ^ 2 % r) + v / r % r) + v % r := by ring
    _ = v := by rw [e3, e2, e1]

/-- Decoding an encoding gives the value back (R98, law 1). -/
theorem safeDecode_safeEncode (var : Variant) {v : Nat} (h : v < var.radix ^ 4) :
    safeDecode var.radix (safeEncode var.radix v) = v := by
  simp only [safeDecode, safeDigit, safeEncode, safeByte_safeWord_zero, safeByte_safeWord_one,
    safeByte_safeWord_two, safeByte_safeWord_three, encodedByte_toNat, Nat.add_sub_cancel]
  simpa using four_digits var.radix v h

/-- Byte `k` of an encoding (R93). -/
theorem safeByte_of_safeEncode {r v k : Nat} (hk : k < 4) : safeByte (safeEncode r v) k = encodedByte r v k := by
  interval_cases k <;> simp [safeEncode]

/-- Every byte of an encoding lies in [1, R] (R98, law 3). -/
theorem safeByte_safeEncode (var : Variant) (v : Nat) {k : Nat} (hk : k < 4) :
    1 ≤ (safeByte (safeEncode var.radix v) k).toNat ∧ (safeByte (safeEncode var.radix v) k).toNat ≤ var.radix := by
  rw [safeByte_of_safeEncode hk, encodedByte_toNat]
  have := Nat.mod_lt (v / var.radix ^ (3 - k)) var.radix_pos
  omega

/-- The digits of a sum of four digits. -/
theorem digits_of_sum {r a b c d : Nat} (ha : a < r) (hb : b < r) (hc : c < r) (hd : d < r) :
    (a * r ^ 3 + b * r ^ 2 + c * r + d) / r ^ 3 % r = a ∧ (a * r ^ 3 + b * r ^ 2 + c * r + d) / r ^ 2 % r = b ∧
    (a * r ^ 3 + b * r ^ 2 + c * r + d) / r % r = c ∧ (a * r ^ 3 + b * r ^ 2 + c * r + d) % r = d := by
  have hr : 0 < r := by omega
  have h1 : (a * r ^ 3 + b * r ^ 2 + c * r + d) / r = a * r ^ 2 + b * r + c := by
    rw [show a * r ^ 3 + b * r ^ 2 + c * r + d = r * (a * r ^ 2 + b * r + c) + d by ring, Nat.mul_add_div hr,
      Nat.div_eq_of_lt hd, Nat.add_zero]
  have h2 : (a * r ^ 3 + b * r ^ 2 + c * r + d) / r ^ 2 = a * r + b := by
    rw [pow_two, ← Nat.div_div_eq_div_mul, ← pow_two, h1,
      show a * r ^ 2 + b * r + c = r * (a * r + b) + c by ring, Nat.mul_add_div hr, Nat.div_eq_of_lt hc, Nat.add_zero]
  have h3 : (a * r ^ 3 + b * r ^ 2 + c * r + d) / r ^ 3 = a := by
    rw [show r ^ 3 = r ^ 2 * r by ring, ← Nat.div_div_eq_div_mul, show r ^ 2 * r = r ^ 3 by ring, h2,
      show a * r + b = r * a + b by ring, Nat.mul_add_div hr, Nat.div_eq_of_lt hb, Nat.add_zero]
  refine ⟨?_, ?_, ?_, ?_⟩
  · rw [h3, Nat.mod_eq_of_lt ha]
  · rw [h2, Nat.mul_add_mod_of_lt hb]
  · rw [h1, show a * r ^ 2 + b * r + c = (a * r + b) * r + c by ring, Nat.mul_add_mod_of_lt hc]
  · rw [show a * r ^ 3 + b * r ^ 2 + c * r + d = (a * r ^ 2 + b * r + c) * r + d by ring, Nat.mul_add_mod_of_lt hd]

/-- A safe length whose bytes all lie in [1, R] decodes to less than R^4 (R94). -/
theorem safeDecode_lt {r : Nat} {w : Word} (hw : ∀ k < 4, safeDigit w k < r) : safeDecode r w < r ^ 4 := by
  have h0 := hw 0 (by omega)
  have h1 := hw 1 (by omega)
  have h2 := hw 2 (by omega)
  have h3 := hw 3 (by omega)
  unfold safeDecode
  generalize safeDigit w 0 = a at *
  generalize safeDigit w 1 = b at *
  generalize safeDigit w 2 = c at *
  generalize safeDigit w 3 = d at *
  calc a * r ^ 3 + b * r ^ 2 + c * r + d
      ≤ (r - 1) * r ^ 3 + (r - 1) * r ^ 2 + (r - 1) * r + (r - 1) := by
        have e0 : a ≤ r - 1 := by omega
        have e1 : b ≤ r - 1 := by omega
        have e2 : c ≤ r - 1 := by omega
        have e3 : d ≤ r - 1 := by omega
        gcongr
    _ < r ^ 4 := by
        obtain ⟨q, rfl⟩ : ∃ q, r = q + 1 := ⟨r - 1, by omega⟩
        simp only [Nat.add_sub_cancel]
        nlinarith [pow_succ (q + 1) 3, pow_succ (q + 1) 2, pow_succ (q + 1) 1]

/-- Encoding a decoding gives the safe length back (R98, law 2). -/
theorem safeEncode_safeDecode (var : Variant) {w : Word}
    (hw : ∀ k < 4, safeByte w k ≠ 0 ∧ (safeByte w k).toNat ≤ var.radix) :
    safeEncode var.radix (safeDecode var.radix w) = w := by
  have hpos : ∀ k < 4, 1 ≤ (safeByte w k).toNat := fun k hk => by
    rcases Nat.eq_zero_or_pos (safeByte w k).toNat with h | h
    · exact absurd (BitVec.eq_of_toNat_eq (by simpa using h)) (hw k hk).1
    · exact h
  have hlt : ∀ k < 4, safeDigit w k < var.radix := fun k hk => by
    have := (hw k hk).2
    have := hpos k hk
    unfold safeDigit
    omega
  obtain ⟨e0, e1, e2, e3⟩ := digits_of_sum (hlt 0 (by omega)) (hlt 1 (by omega)) (hlt 2 (by omega)) (hlt 3 (by omega))
  have hb : ∀ k < 4, encodedByte var.radix (safeDecode var.radix w) k = safeByte w k := fun k hk => by
    apply BitVec.eq_of_toNat_eq
    rw [encodedByte_toNat]
    have := hpos k hk
    unfold safeDecode
    interval_cases k
    · rw [Nat.sub_zero, e0, safeDigit]
      omega
    · rw [show 3 - 1 = 2 from rfl, e1, safeDigit]
      omega
    · rw [show 3 - 2 = 1 from rfl, pow_one, e2, safeDigit]
      omega
    · rw [Nat.sub_self, pow_zero, Nat.div_one, e3, safeDigit]
      omega
  rw [safeEncode, hb 0 (by omega), hb 1 (by omega), hb 2 (by omega), hb 3 (by omega), safeWord_safeByte]

/-! ### The order of safe lengths -/

/-- A safe length read with byte 0 most significant (R98, law 4). -/
def safeWireValue (w : Word) : Nat :=
  (safeByte w 0).toNat * 2 ^ 24 + (safeByte w 1).toNat * 2 ^ 16 + (safeByte w 2).toNat * 2 ^ 8 + (safeByte w 3).toNat

/-- The last `n` base-r digits of a value, 1 added to each, read as bytes with the first most significant. -/
def wireDigits (r : Nat) : Nat → Nat → Nat
  | 0, _ => 0
  | n + 1, v => wireDigits r n (v / r) * 256 + (v % r + 1)

theorem wireDigits_lt {r : Nat} (hr0 : 0 < r) (hr : r ≤ 255) {n v w : Nat} (h : v < w) (hw : w < r ^ n) :
    wireDigits r n v < wireDigits r n w := by
  induction n generalizing v w with
  | zero =>
    rw [pow_zero] at hw
    omega
  | succ n ih =>
    have hv := Nat.div_add_mod v r
    have hw' := Nat.div_add_mod w r
    have hv1 := Nat.mod_lt v hr0
    simp only [wireDigits]
    rcases Nat.lt_or_eq_of_le (Nat.div_le_div_right (c := r) h.le) with hlt | heq
    · have := ih hlt ((Nat.div_lt_iff_lt_mul hr0).mpr (by rwa [← pow_succ]))
      omega
    · rw [heq] at hv ⊢
      omega

theorem safeWireValue_safeEncode (var : Variant) (v : Nat) :
    safeWireValue (safeEncode var.radix v) = wireDigits var.radix 4 v := by
  have d2 : v / var.radix / var.radix = v / var.radix ^ 2 := by rw [Nat.div_div_eq_div_mul, pow_two]
  have d3 : v / var.radix ^ 2 / var.radix = v / var.radix ^ 3 := by rw [Nat.div_div_eq_div_mul, ← pow_succ]
  simp only [safeWireValue, safeEncode, safeByte_safeWord_zero, safeByte_safeWord_one, safeByte_safeWord_two,
    safeByte_safeWord_three, encodedByte_toNat, wireDigits, d2, d3, Nat.sub_zero, Nat.sub_self, pow_zero, Nat.div_one,
    show 3 - 1 = 2 from rfl, show 3 - 2 = 1 from rfl, pow_one]
  ring

/-- Encoding keeps the order of encodable values (R98, law 4). -/
theorem safeWireValue_safeEncode_lt (var : Variant) {v w : Nat} (h : v < w) (hw : w < var.radix ^ 4) :
    safeWireValue (safeEncode var.radix v) < safeWireValue (safeEncode var.radix w) := by
  rw [safeWireValue_safeEncode, safeWireValue_safeEncode]
  exact wireDigits_lt var.radix_pos var.radix_le h hw

/-! ### The checks of SDEC -/

theorem firstSafeByte_eq_none {w : Word} {p : Byte → Bool} :
    firstSafeByte w p = none ↔ ∀ k < 4, p (safeByte w k) = false := by
  simp only [firstSafeByte, List.find?_eq_none, List.mem_cons, List.not_mem_nil, or_false, Bool.not_eq_true]
  constructor
  · intro h k hk
    exact h k (by omega)
  · rintro h k (rfl | rfl | rfl | rfl) <;> exact h _ (by omega)

/-- The checks of SDEC find the least byte at fault (R97, R131). -/
theorem firstSafeByte_eq_some {w : Word} {p : Byte → Bool} {k : Nat} :
    firstSafeByte w p = some k ↔ k < 4 ∧ p (safeByte w k) = true ∧ ∀ j < k, p (safeByte w j) = false := by
  simp only [firstSafeByte, List.find?_cons, List.find?_nil]
  constructor
  · intro h
    repeat' split at h
    all_goals first | (cases h; done) | skip
    all_goals
      cases h
      refine ⟨by omega, by assumption, fun j hj => ?_⟩
      interval_cases j <;> simp_all
  · rintro ⟨hk, hp, hj⟩
    interval_cases k
    · simp [hp]
    · simp [hp, hj 0 (by omega)]
    · simp [hp, hj 0 (by omega), hj 1 (by omega)]
    · simp [hp, hj 0 (by omega), hj 1 (by omega), hj 2 (by omega)]

end Sys2Proof.Machine
end

