-- ==== Sys2Proof/Laws/State.lean ====
section
/-! SUPPORT. One lemma for each field of State and each update of it, so that no proof unfolds a record update. -/

namespace Sys2Proof.Machine

variable (s : State)

/-! ### issuing a command (R66) -/

@[simp] theorem State.issue_cfg (w : Word) : (s.issue w).cfg = s.cfg := rfl
@[simp] theorem State.issue_variant (w : Word) : (s.issue w).variant = s.variant := rfl
@[simp] theorem State.issue_irqEn (w : Word) : (s.issue w).irqEn = s.irqEn := rfl
@[simp] theorem State.issue_done (w : Word) : (s.issue w).done = false := rfl
@[simp] theorem State.issue_werr (w : Word) : (s.issue w).werr = s.werr := rfl
@[simp] theorem State.issue_errCode (w : Word) : (s.issue w).errCode = .ok := rfl
@[simp] theorem State.issue_fromBase (w : Word) : (s.issue w).fromBase = s.fromBase := rfl
@[simp] theorem State.issue_toBase (w : Word) : (s.issue w).toBase = s.toBase := rfl
@[simp] theorem State.issue_inLen (w : Word) : (s.issue w).inLen = s.inLen := rfl
@[simp] theorem State.issue_outLen (w : Word) : (s.issue w).outLen = s.outLen := rfl
@[simp] theorem State.issue_value (w : Word) : (s.issue w).value = s.value := rfl
@[simp] theorem State.issue_safe (w : Word) : (s.issue w).safe = s.safe := rfl
@[simp] theorem State.issue_errPos (w : Word) : (s.issue w).errPos = 0 := rfl
@[simp] theorem State.issue_inBuf (w : Word) : (s.issue w).inBuf = s.inBuf := rfl
@[simp] theorem State.issue_outBuf (w : Word) : (s.issue w).outBuf = s.outBuf := rfl
@[simp] theorem State.issue_pend (w : Word) : (s.issue w).pend = some w := rfl
@[simp] theorem State.issue_phase (w : Word) : (s.issue w).phase = s.phase := rfl
@[simp] theorem State.issue_draws (w : Word) : (s.issue w).draws = s.draws := rfl
@[simp] theorem State.issue_inputs (w : Word) : (s.issue w).inputs = s.inputs := rfl
@[simp] theorem State.issue_response (w : Word) : (s.issue w).response = s.response := rfl

/-! ### completing a command (R68) -/

@[simp] theorem State.complete_cfg (e : ErrCode) (p : Nat) : (s.complete e p).cfg = s.cfg := rfl
@[simp] theorem State.complete_variant (e : ErrCode) (p : Nat) : (s.complete e p).variant = s.variant := rfl
@[simp] theorem State.complete_irqEn (e : ErrCode) (p : Nat) : (s.complete e p).irqEn = s.irqEn := rfl
@[simp] theorem State.complete_done (e : ErrCode) (p : Nat) : (s.complete e p).done = true := rfl
@[simp] theorem State.complete_werr (e : ErrCode) (p : Nat) : (s.complete e p).werr = s.werr := rfl
@[simp] theorem State.complete_errCode (e : ErrCode) (p : Nat) : (s.complete e p).errCode = e := rfl
@[simp] theorem State.complete_fromBase (e : ErrCode) (p : Nat) : (s.complete e p).fromBase = s.fromBase := rfl
@[simp] theorem State.complete_toBase (e : ErrCode) (p : Nat) : (s.complete e p).toBase = s.toBase := rfl
@[simp] theorem State.complete_inLen (e : ErrCode) (p : Nat) : (s.complete e p).inLen = s.inLen := rfl
@[simp] theorem State.complete_outLen (e : ErrCode) (p : Nat) : (s.complete e p).outLen = s.outLen := rfl
@[simp] theorem State.complete_value (e : ErrCode) (p : Nat) : (s.complete e p).value = s.value := rfl
@[simp] theorem State.complete_safe (e : ErrCode) (p : Nat) : (s.complete e p).safe = s.safe := rfl
@[simp] theorem State.complete_errPos (e : ErrCode) (p : Nat) : (s.complete e p).errPos = if e = .ok then 0 else BitVec.ofNat 17 p := rfl
@[simp] theorem State.complete_inBuf (e : ErrCode) (p : Nat) : (s.complete e p).inBuf = s.inBuf := rfl
@[simp] theorem State.complete_outBuf (e : ErrCode) (p : Nat) : (s.complete e p).outBuf = s.outBuf := rfl
@[simp] theorem State.complete_pend (e : ErrCode) (p : Nat) : (s.complete e p).pend = none := rfl
@[simp] theorem State.complete_phase (e : ErrCode) (p : Nat) : (s.complete e p).phase = s.phase := rfl
@[simp] theorem State.complete_draws (e : ErrCode) (p : Nat) : (s.complete e p).draws = s.draws := rfl
@[simp] theorem State.complete_inputs (e : ErrCode) (p : Nat) : (s.complete e p).inputs = s.inputs := rfl
@[simp] theorem State.complete_response (e : ErrCode) (p : Nat) : (s.complete e p).response = s.response := rfl

/-! ### a failed CONV, EENC or EDEC (R68) -/

@[simp] theorem State.failOut_cfg (e : ErrCode) (p : Nat) : (s.failOut e p).cfg = s.cfg := rfl
@[simp] theorem State.failOut_variant (e : ErrCode) (p : Nat) : (s.failOut e p).variant = s.variant := rfl
@[simp] theorem State.failOut_irqEn (e : ErrCode) (p : Nat) : (s.failOut e p).irqEn = s.irqEn := rfl
@[simp] theorem State.failOut_done (e : ErrCode) (p : Nat) : (s.failOut e p).done = true := rfl
@[simp] theorem State.failOut_werr (e : ErrCode) (p : Nat) : (s.failOut e p).werr = s.werr := rfl
@[simp] theorem State.failOut_errCode (e : ErrCode) (p : Nat) : (s.failOut e p).errCode = e := rfl
@[simp] theorem State.failOut_fromBase (e : ErrCode) (p : Nat) : (s.failOut e p).fromBase = s.fromBase := rfl
@[simp] theorem State.failOut_toBase (e : ErrCode) (p : Nat) : (s.failOut e p).toBase = s.toBase := rfl
@[simp] theorem State.failOut_inLen (e : ErrCode) (p : Nat) : (s.failOut e p).inLen = s.inLen := rfl
@[simp] theorem State.failOut_outLen (e : ErrCode) (p : Nat) : (s.failOut e p).outLen = 0 := rfl
@[simp] theorem State.failOut_value (e : ErrCode) (p : Nat) : (s.failOut e p).value = s.value := rfl
@[simp] theorem State.failOut_safe (e : ErrCode) (p : Nat) : (s.failOut e p).safe = s.safe := rfl
@[simp] theorem State.failOut_errPos (e : ErrCode) (p : Nat) : (s.failOut e p).errPos = if e = .ok then 0 else BitVec.ofNat 17 p := rfl
@[simp] theorem State.failOut_inBuf (e : ErrCode) (p : Nat) : (s.failOut e p).inBuf = s.inBuf := rfl
@[simp] theorem State.failOut_outBuf (e : ErrCode) (p : Nat) : (s.failOut e p).outBuf = Memory.drawn s.draws := rfl
@[simp] theorem State.failOut_pend (e : ErrCode) (p : Nat) : (s.failOut e p).pend = none := rfl
@[simp] theorem State.failOut_phase (e : ErrCode) (p : Nat) : (s.failOut e p).phase = s.phase := rfl
@[simp] theorem State.failOut_draws (e : ErrCode) (p : Nat) : (s.failOut e p).draws = s.draws + 1 := rfl
@[simp] theorem State.failOut_inputs (e : ErrCode) (p : Nat) : (s.failOut e p).inputs = s.inputs := rfl
@[simp] theorem State.failOut_response (e : ErrCode) (p : Nat) : (s.failOut e p).response = s.response := rfl

/-! ### a successful CONV, EENC or EDEC (R35) -/

@[simp] theorem State.succeedOut_cfg (o : List Byte) : (s.succeedOut o).cfg = s.cfg := rfl
@[simp] theorem State.succeedOut_variant (o : List Byte) : (s.succeedOut o).variant = s.variant := rfl
@[simp] theorem State.succeedOut_irqEn (o : List Byte) : (s.succeedOut o).irqEn = s.irqEn := rfl
@[simp] theorem State.succeedOut_done (o : List Byte) : (s.succeedOut o).done = true := rfl
@[simp] theorem State.succeedOut_werr (o : List Byte) : (s.succeedOut o).werr = s.werr := rfl
@[simp] theorem State.succeedOut_errCode (o : List Byte) : (s.succeedOut o).errCode = .ok := rfl
@[simp] theorem State.succeedOut_fromBase (o : List Byte) : (s.succeedOut o).fromBase = s.fromBase := rfl
@[simp] theorem State.succeedOut_toBase (o : List Byte) : (s.succeedOut o).toBase = s.toBase := rfl
@[simp] theorem State.succeedOut_inLen (o : List Byte) : (s.succeedOut o).inLen = s.inLen := rfl
@[simp] theorem State.succeedOut_outLen (o : List Byte) : (s.succeedOut o).outLen = BitVec.ofNat 18 o.length := rfl
@[simp] theorem State.succeedOut_value (o : List Byte) : (s.succeedOut o).value = s.value := rfl
@[simp] theorem State.succeedOut_safe (o : List Byte) : (s.succeedOut o).safe = s.safe := rfl
@[simp] theorem State.succeedOut_errPos (o : List Byte) : (s.succeedOut o).errPos = 0 := rfl
@[simp] theorem State.succeedOut_inBuf (o : List Byte) : (s.succeedOut o).inBuf = s.inBuf := rfl
@[simp] theorem State.succeedOut_outBuf (o : List Byte) : (s.succeedOut o).outBuf = Memory.holding s.draws o := rfl
@[simp] theorem State.succeedOut_pend (o : List Byte) : (s.succeedOut o).pend = none := rfl
@[simp] theorem State.succeedOut_phase (o : List Byte) : (s.succeedOut o).phase = s.phase := rfl
@[simp] theorem State.succeedOut_draws (o : List Byte) : (s.succeedOut o).draws = s.draws + 1 := rfl
@[simp] theorem State.succeedOut_inputs (o : List Byte) : (s.succeedOut o).inputs = s.inputs := rfl
@[simp] theorem State.succeedOut_response (o : List Byte) : (s.succeedOut o).response = s.response := rfl

/-! ### a dropped write (R69) -/

@[simp] theorem State.dropWrite_cfg : (s.dropWrite).cfg = s.cfg := rfl
@[simp] theorem State.dropWrite_variant : (s.dropWrite).variant = s.variant := rfl
@[simp] theorem State.dropWrite_irqEn : (s.dropWrite).irqEn = s.irqEn := rfl
@[simp] theorem State.dropWrite_done : (s.dropWrite).done = s.done := rfl
@[simp] theorem State.dropWrite_werr : (s.dropWrite).werr = true := rfl
@[simp] theorem State.dropWrite_errCode : (s.dropWrite).errCode = s.errCode := rfl
@[simp] theorem State.dropWrite_fromBase : (s.dropWrite).fromBase = s.fromBase := rfl
@[simp] theorem State.dropWrite_toBase : (s.dropWrite).toBase = s.toBase := rfl
@[simp] theorem State.dropWrite_inLen : (s.dropWrite).inLen = s.inLen := rfl
@[simp] theorem State.dropWrite_outLen : (s.dropWrite).outLen = s.outLen := rfl
@[simp] theorem State.dropWrite_value : (s.dropWrite).value = s.value := rfl
@[simp] theorem State.dropWrite_safe : (s.dropWrite).safe = s.safe := rfl
@[simp] theorem State.dropWrite_errPos : (s.dropWrite).errPos = s.errPos := rfl
@[simp] theorem State.dropWrite_inBuf : (s.dropWrite).inBuf = s.inBuf := rfl
@[simp] theorem State.dropWrite_outBuf : (s.dropWrite).outBuf = s.outBuf := rfl
@[simp] theorem State.dropWrite_pend : (s.dropWrite).pend = s.pend := rfl
@[simp] theorem State.dropWrite_phase : (s.dropWrite).phase = s.phase := rfl
@[simp] theorem State.dropWrite_draws : (s.dropWrite).draws = s.draws := rfl
@[simp] theorem State.dropWrite_inputs : (s.dropWrite).inputs = s.inputs := rfl
@[simp] theorem State.dropWrite_response : (s.dropWrite).response = s.response := rfl

/-! ### a CTRL write (R22) -/

@[simp] theorem State.writeCtrlFields_cfg (w : Word) : (s.writeCtrlFields w).cfg = s.cfg := rfl
@[simp] theorem State.writeCtrlFields_variant (w : Word) : (s.writeCtrlFields w).variant = Variant.ofBit (w.getLsbD 0) := rfl
@[simp] theorem State.writeCtrlFields_irqEn (w : Word) : (s.writeCtrlFields w).irqEn = w.getLsbD 1 := rfl
@[simp] theorem State.writeCtrlFields_done (w : Word) : (s.writeCtrlFields w).done = s.done := rfl
@[simp] theorem State.writeCtrlFields_werr (w : Word) : (s.writeCtrlFields w).werr = s.werr := rfl
@[simp] theorem State.writeCtrlFields_errCode (w : Word) : (s.writeCtrlFields w).errCode = s.errCode := rfl
@[simp] theorem State.writeCtrlFields_fromBase (w : Word) : (s.writeCtrlFields w).fromBase = s.fromBase := rfl
@[simp] theorem State.writeCtrlFields_toBase (w : Word) : (s.writeCtrlFields w).toBase = s.toBase := rfl
@[simp] theorem State.writeCtrlFields_inLen (w : Word) : (s.writeCtrlFields w).inLen = s.inLen := rfl
@[simp] theorem State.writeCtrlFields_outLen (w : Word) : (s.writeCtrlFields w).outLen = s.outLen := rfl
@[simp] theorem State.writeCtrlFields_value (w : Word) : (s.writeCtrlFields w).value = s.value := rfl
@[simp] theorem State.writeCtrlFields_safe (w : Word) : (s.writeCtrlFields w).safe = s.safe := rfl
@[simp] theorem State.writeCtrlFields_errPos (w : Word) : (s.writeCtrlFields w).errPos = s.errPos := rfl
@[simp] theorem State.writeCtrlFields_inBuf (w : Word) : (s.writeCtrlFields w).inBuf = s.inBuf := rfl
@[simp] theorem State.writeCtrlFields_outBuf (w : Word) : (s.writeCtrlFields w).outBuf = s.outBuf := rfl
@[simp] theorem State.writeCtrlFields_pend (w : Word) : (s.writeCtrlFields w).pend = s.pend := rfl
@[simp] theorem State.writeCtrlFields_phase (w : Word) : (s.writeCtrlFields w).phase = s.phase := rfl
@[simp] theorem State.writeCtrlFields_draws (w : Word) : (s.writeCtrlFields w).draws = s.draws := rfl
@[simp] theorem State.writeCtrlFields_inputs (w : Word) : (s.writeCtrlFields w).inputs = s.inputs := rfl
@[simp] theorem State.writeCtrlFields_response (w : Word) : (s.writeCtrlFields w).response = s.response := rfl

/-! ### a STATUS write (R24) -/

@[simp] theorem State.writeStatus_cfg (w : Word) : (s.writeStatus w).cfg = s.cfg := rfl
@[simp] theorem State.writeStatus_variant (w : Word) : (s.writeStatus w).variant = s.variant := rfl
@[simp] theorem State.writeStatus_irqEn (w : Word) : (s.writeStatus w).irqEn = s.irqEn := rfl
@[simp] theorem State.writeStatus_done (w : Word) : (s.writeStatus w).done = (s.done && !w.getLsbD 1) := rfl
@[simp] theorem State.writeStatus_werr (w : Word) : (s.writeStatus w).werr = (s.werr && !w.getLsbD 3) := rfl
@[simp] theorem State.writeStatus_errCode (w : Word) : (s.writeStatus w).errCode = s.errCode := rfl
@[simp] theorem State.writeStatus_fromBase (w : Word) : (s.writeStatus w).fromBase = s.fromBase := rfl
@[simp] theorem State.writeStatus_toBase (w : Word) : (s.writeStatus w).toBase = s.toBase := rfl
@[simp] theorem State.writeStatus_inLen (w : Word) : (s.writeStatus w).inLen = s.inLen := rfl
@[simp] theorem State.writeStatus_outLen (w : Word) : (s.writeStatus w).outLen = s.outLen := rfl
@[simp] theorem State.writeStatus_value (w : Word) : (s.writeStatus w).value = s.value := rfl
@[simp] theorem State.writeStatus_safe (w : Word) : (s.writeStatus w).safe = s.safe := rfl
@[simp] theorem State.writeStatus_errPos (w : Word) : (s.writeStatus w).errPos = s.errPos := rfl
@[simp] theorem State.writeStatus_inBuf (w : Word) : (s.writeStatus w).inBuf = s.inBuf := rfl
@[simp] theorem State.writeStatus_outBuf (w : Word) : (s.writeStatus w).outBuf = s.outBuf := rfl
@[simp] theorem State.writeStatus_pend (w : Word) : (s.writeStatus w).pend = s.pend := rfl
@[simp] theorem State.writeStatus_phase (w : Word) : (s.writeStatus w).phase = s.phase := rfl
@[simp] theorem State.writeStatus_draws (w : Word) : (s.writeStatus w).draws = s.draws := rfl
@[simp] theorem State.writeStatus_inputs (w : Word) : (s.writeStatus w).inputs = s.inputs := rfl
@[simp] theorem State.writeStatus_response (w : Word) : (s.writeStatus w).response = s.response := rfl

/-! ### the port's answer -/

@[simp] theorem State.answer_cfg (r : BusResponse) : (s.answer r).cfg = s.cfg := rfl
@[simp] theorem State.answer_variant (r : BusResponse) : (s.answer r).variant = s.variant := rfl
@[simp] theorem State.answer_irqEn (r : BusResponse) : (s.answer r).irqEn = s.irqEn := rfl
@[simp] theorem State.answer_done (r : BusResponse) : (s.answer r).done = s.done := rfl
@[simp] theorem State.answer_werr (r : BusResponse) : (s.answer r).werr = s.werr := rfl
@[simp] theorem State.answer_errCode (r : BusResponse) : (s.answer r).errCode = s.errCode := rfl
@[simp] theorem State.answer_fromBase (r : BusResponse) : (s.answer r).fromBase = s.fromBase := rfl
@[simp] theorem State.answer_toBase (r : BusResponse) : (s.answer r).toBase = s.toBase := rfl
@[simp] theorem State.answer_inLen (r : BusResponse) : (s.answer r).inLen = s.inLen := rfl
@[simp] theorem State.answer_outLen (r : BusResponse) : (s.answer r).outLen = s.outLen := rfl
@[simp] theorem State.answer_value (r : BusResponse) : (s.answer r).value = s.value := rfl
@[simp] theorem State.answer_safe (r : BusResponse) : (s.answer r).safe = s.safe := rfl
@[simp] theorem State.answer_errPos (r : BusResponse) : (s.answer r).errPos = s.errPos := rfl
@[simp] theorem State.answer_inBuf (r : BusResponse) : (s.answer r).inBuf = s.inBuf := rfl
@[simp] theorem State.answer_outBuf (r : BusResponse) : (s.answer r).outBuf = s.outBuf := rfl
@[simp] theorem State.answer_pend (r : BusResponse) : (s.answer r).pend = s.pend := rfl
@[simp] theorem State.answer_phase (r : BusResponse) : (s.answer r).phase = s.phase := rfl
@[simp] theorem State.answer_draws (r : BusResponse) : (s.answer r).draws = s.draws := rfl
@[simp] theorem State.answer_inputs (r : BusResponse) : (s.answer r).inputs = s.inputs := rfl
@[simp] theorem State.answer_response (r : BusResponse) : (s.answer r).response = some r := rfl

/-! ### taking the next event -/

@[simp] theorem State.turn_cfg : (s.turn).cfg = s.cfg := rfl
@[simp] theorem State.turn_variant : (s.turn).variant = s.variant := rfl
@[simp] theorem State.turn_irqEn : (s.turn).irqEn = s.irqEn := rfl
@[simp] theorem State.turn_done : (s.turn).done = s.done := rfl
@[simp] theorem State.turn_werr : (s.turn).werr = s.werr := rfl
@[simp] theorem State.turn_errCode : (s.turn).errCode = s.errCode := rfl
@[simp] theorem State.turn_fromBase : (s.turn).fromBase = s.fromBase := rfl
@[simp] theorem State.turn_toBase : (s.turn).toBase = s.toBase := rfl
@[simp] theorem State.turn_inLen : (s.turn).inLen = s.inLen := rfl
@[simp] theorem State.turn_outLen : (s.turn).outLen = s.outLen := rfl
@[simp] theorem State.turn_value : (s.turn).value = s.value := rfl
@[simp] theorem State.turn_safe : (s.turn).safe = s.safe := rfl
@[simp] theorem State.turn_errPos : (s.turn).errPos = s.errPos := rfl
@[simp] theorem State.turn_inBuf : (s.turn).inBuf = s.inBuf := rfl
@[simp] theorem State.turn_outBuf : (s.turn).outBuf = s.outBuf := rfl
@[simp] theorem State.turn_pend : (s.turn).pend = s.pend := rfl
@[simp] theorem State.turn_phase : (s.turn).phase = s.phase := rfl
@[simp] theorem State.turn_draws : (s.turn).draws = s.draws := rfl
@[simp] theorem State.turn_inputs : (s.turn).inputs = s.inputs.tail := rfl
@[simp] theorem State.turn_response : (s.turn).response = none := rfl

/-! ### a reset (R41, R152) -/

@[simp] theorem State.toResetValues_cfg : (s.toResetValues).cfg = s.cfg := rfl
@[simp] theorem State.toResetValues_variant : (s.toResetValues).variant = .v0 := rfl
@[simp] theorem State.toResetValues_irqEn : (s.toResetValues).irqEn = false := rfl
@[simp] theorem State.toResetValues_done : (s.toResetValues).done = false := rfl
@[simp] theorem State.toResetValues_werr : (s.toResetValues).werr = false := rfl
@[simp] theorem State.toResetValues_errCode : (s.toResetValues).errCode = .ok := rfl
@[simp] theorem State.toResetValues_fromBase : (s.toResetValues).fromBase = 256 := rfl
@[simp] theorem State.toResetValues_toBase : (s.toResetValues).toBase = 254 := rfl
@[simp] theorem State.toResetValues_inLen : (s.toResetValues).inLen = 0 := rfl
@[simp] theorem State.toResetValues_outLen : (s.toResetValues).outLen = 0 := rfl
@[simp] theorem State.toResetValues_value : (s.toResetValues).value = 0 := rfl
@[simp] theorem State.toResetValues_safe : (s.toResetValues).safe = 0 := rfl
@[simp] theorem State.toResetValues_errPos : (s.toResetValues).errPos = 0 := rfl
@[simp] theorem State.toResetValues_inBuf : (s.toResetValues).inBuf = Memory.drawn s.draws := rfl
@[simp] theorem State.toResetValues_outBuf : (s.toResetValues).outBuf = Memory.drawn (s.draws + 1) := rfl
@[simp] theorem State.toResetValues_pend : (s.toResetValues).pend = none := rfl
@[simp] theorem State.toResetValues_phase : (s.toResetValues).phase = s.phase := rfl
@[simp] theorem State.toResetValues_draws : (s.toResetValues).draws = s.draws + 2 := rfl
@[simp] theorem State.toResetValues_inputs : (s.toResetValues).inputs = s.inputs := rfl
@[simp] theorem State.toResetValues_response : (s.toResetValues).response = s.response := rfl

/-! ### asserting reset (R149) -/

@[simp] theorem State.assertReset_cfg : (s.assertReset).cfg = s.cfg := rfl
@[simp] theorem State.assertReset_variant : (s.assertReset).variant = .v0 := rfl
@[simp] theorem State.assertReset_irqEn : (s.assertReset).irqEn = false := rfl
@[simp] theorem State.assertReset_done : (s.assertReset).done = false := rfl
@[simp] theorem State.assertReset_werr : (s.assertReset).werr = false := rfl
@[simp] theorem State.assertReset_errCode : (s.assertReset).errCode = .ok := rfl
@[simp] theorem State.assertReset_fromBase : (s.assertReset).fromBase = 256 := rfl
@[simp] theorem State.assertReset_toBase : (s.assertReset).toBase = 254 := rfl
@[simp] theorem State.assertReset_inLen : (s.assertReset).inLen = 0 := rfl
@[simp] theorem State.assertReset_outLen : (s.assertReset).outLen = 0 := rfl
@[simp] theorem State.assertReset_value : (s.assertReset).value = 0 := rfl
@[simp] theorem State.assertReset_safe : (s.assertReset).safe = 0 := rfl
@[simp] theorem State.assertReset_errPos : (s.assertReset).errPos = 0 := rfl
@[simp] theorem State.assertReset_inBuf : (s.assertReset).inBuf = Memory.drawn s.draws := rfl
@[simp] theorem State.assertReset_outBuf : (s.assertReset).outBuf = Memory.drawn (s.draws + 1) := rfl
@[simp] theorem State.assertReset_pend : (s.assertReset).pend = none := rfl
@[simp] theorem State.assertReset_phase : (s.assertReset).phase = .inReset := rfl
@[simp] theorem State.assertReset_draws : (s.assertReset).draws = s.draws + 2 := rfl
@[simp] theorem State.assertReset_inputs : (s.assertReset).inputs = s.inputs := rfl
@[simp] theorem State.assertReset_response : (s.assertReset).response = s.response := rfl

/-! ### losing power (R142, U9): what the registers hold is a free value -/

@[simp] theorem State.losePower_cfg : s.losePower.cfg = s.cfg := rfl
@[simp] theorem State.losePower_inBuf : s.losePower.inBuf = Memory.drawn (s.draws + 1) := rfl
@[simp] theorem State.losePower_outBuf : s.losePower.outBuf = Memory.drawn (s.draws + 2) := rfl
@[simp] theorem State.losePower_draws : s.losePower.draws = s.draws + 3 := rfl
@[simp] theorem State.losePower_phase : s.losePower.phase = .powerLost := rfl
@[simp] theorem State.losePower_inputs : s.losePower.inputs = s.inputs := rfl
@[simp] theorem State.losePower_response : s.losePower.response = s.response := rfl

/-! ### releasing reset (R149): only the phase can change -/

@[simp] theorem State.releaseReset_cfg : s.releaseReset.cfg = s.cfg := by
  unfold State.releaseReset; split <;> rfl
@[simp] theorem State.releaseReset_variant : s.releaseReset.variant = s.variant := by
  unfold State.releaseReset; split <;> rfl
@[simp] theorem State.releaseReset_irqEn : s.releaseReset.irqEn = s.irqEn := by
  unfold State.releaseReset; split <;> rfl
@[simp] theorem State.releaseReset_done : s.releaseReset.done = s.done := by
  unfold State.releaseReset; split <;> rfl
@[simp] theorem State.releaseReset_werr : s.releaseReset.werr = s.werr := by
  unfold State.releaseReset; split <;> rfl
@[simp] theorem State.releaseReset_errCode : s.releaseReset.errCode = s.errCode := by
  unfold State.releaseReset; split <;> rfl
@[simp] theorem State.releaseReset_fromBase : s.releaseReset.fromBase = s.fromBase := by
  unfold State.releaseReset; split <;> rfl
@[simp] theorem State.releaseReset_toBase : s.releaseReset.toBase = s.toBase := by
  unfold State.releaseReset; split <;> rfl
@[simp] theorem State.releaseReset_inLen : s.releaseReset.inLen = s.inLen := by
  unfold State.releaseReset; split <;> rfl
@[simp] theorem State.releaseReset_outLen : s.releaseReset.outLen = s.outLen := by
  unfold State.releaseReset; split <;> rfl
@[simp] theorem State.releaseReset_value : s.releaseReset.value = s.value := by
  unfold State.releaseReset; split <;> rfl
@[simp] theorem State.releaseReset_safe : s.releaseReset.safe = s.safe := by
  unfold State.releaseReset; split <;> rfl
@[simp] theorem State.releaseReset_errPos : s.releaseReset.errPos = s.errPos := by
  unfold State.releaseReset; split <;> rfl
@[simp] theorem State.releaseReset_inBuf : s.releaseReset.inBuf = s.inBuf := by
  unfold State.releaseReset; split <;> rfl
@[simp] theorem State.releaseReset_outBuf : s.releaseReset.outBuf = s.outBuf := by
  unfold State.releaseReset; split <;> rfl
@[simp] theorem State.releaseReset_pend : s.releaseReset.pend = s.pend := by
  unfold State.releaseReset; split <;> rfl
@[simp] theorem State.releaseReset_draws : s.releaseReset.draws = s.draws := by
  unfold State.releaseReset; split <;> rfl
@[simp] theorem State.releaseReset_inputs : s.releaseReset.inputs = s.inputs := by
  unfold State.releaseReset; split <;> rfl
@[simp] theorem State.releaseReset_response : s.releaseReset.response = s.response := by
  unfold State.releaseReset; split <;> rfl

/-- Releasing reset ends the reset condition and no other. -/
@[simp] theorem State.releaseReset_phase :
    s.releaseReset.phase = if s.phase = .inReset then .ready else s.phase := by
  unfold State.releaseReset
  split <;> simp_all

end Sys2Proof.Machine
end

