-- ==== Sys2Proof/Laws/Exec.lean ====
section
/-! SUPPORT. What the completion of each command can be, said once: a plain completion, one that writes SAFE or VALUE, a
failed or a successful write of OUT (40_command_engine.md R68). -/

namespace Sys2Proof.Machine

theorem State.inputBytes_length (s : State) : s.inputBytes.length = s.inLen.toNat := Memory.bytes_length _ _

theorem State.badLength_iff (s : State) : s.badLength = true ↔ s.cfg.inCap < s.inLen.toNat := by simp [State.badLength]

theorem State.badLength_eq_false_iff (s : State) : s.badLength = false ↔ s.inLen.toNat ≤ s.cfg.inCap := by
  simp [State.badLength]

/-- A state is fixed by its fields: two states with equal fields are equal. -/
theorem State.ext' {s t : State} (h1 : s.cfg = t.cfg) (h2 : s.variant = t.variant) (h3 : s.irqEn = t.irqEn)
    (h4 : s.done = t.done) (h5 : s.werr = t.werr) (h6 : s.errCode = t.errCode) (h7 : s.fromBase = t.fromBase)
    (h8 : s.toBase = t.toBase) (h9 : s.inLen = t.inLen) (h10 : s.outLen = t.outLen) (h11 : s.value = t.value)
    (h12 : s.safe = t.safe) (h13 : s.errPos = t.errPos) (h14 : s.inBuf = t.inBuf) (h15 : s.outBuf = t.outBuf)
    (h16 : s.pend = t.pend) (h17 : s.phase = t.phase) (h18 : s.draws = t.draws) (h19 : s.inputs = t.inputs)
    (h20 : s.response = t.response) : s = t := by
  cases s
  cases t
  simp_all

/-- SENC: without an error it writes SAFE, else it only completes (R96). -/
theorem execSenc_cases (s : State) :
    (s.value.toNat < s.variant.radix ^ 4 ∧ execSenc s =
      .next ({ s with safe := safeEncode s.variant.radix s.value.toNat }.complete .ok 0)) ∨
    (s.variant.radix ^ 4 ≤ s.value.toNat ∧ execSenc s = .next (s.complete .valueOutOfRange 0)) := by
  unfold execSenc
  split
  · exact .inr ⟨‹_›, rfl⟩
  · exact .inl ⟨by omega, rfl⟩

/-- SDEC: a zero byte, else a byte above R, else VALUE is written (R97). -/
theorem execSdec_cases (s : State) :
    (∃ k, firstSafeByte s.safe (fun b => b == 0) = some k ∧ execSdec s = .next (s.complete .malformedValue k)) ∨
    (firstSafeByte s.safe (fun b => b == 0) = none ∧
      ∃ k, firstSafeByte s.safe (fun b => decide (s.variant.radix ≤ b.toNat - 1)) = some k ∧
        execSdec s = .next (s.complete .invalidDigit k)) ∨
    (firstSafeByte s.safe (fun b => b == 0) = none ∧
      firstSafeByte s.safe (fun b => decide (s.variant.radix ≤ b.toNat - 1)) = none ∧
      execSdec s =
        .next ({ s with value := BitVec.ofNat 32 (safeDecode s.variant.radix s.safe) }.complete .ok 0)) := by
  unfold execSdec
  cases h : firstSafeByte s.safe (fun b => b == 0) with
  | some k => exact .inl ⟨k, rfl, rfl⟩
  | none =>
    cases h' : firstSafeByte s.safe (fun b => decide (s.variant.radix ≤ b.toNat - 1)) with
    | some k => exact .inr (.inl ⟨rfl, k, rfl, rfl⟩)
    | none => exact .inr (.inr ⟨rfl, rfl, rfl⟩)

/-- The end of a CONV, EENC or EDEC: a failure with one of the given codes, at an index of IN or 0, or a result that
fits into OUT (R68, R79, R114, R115). -/
def EndsOut (s : State) (codes : List ErrCode) (t : State) : Prop :=
  (∃ e p, e ∈ codes ∧ e ≠ .ok ∧ p < s.cfg.inCap ∧ t = s.failOut e p) ∨
  ∃ o : List Byte, o.length ≤ s.cfg.outCap ∧ t = s.succeedOut o

theorem execConv_ends (s : State) : ∃ t, execConv s = .next t ∧
    EndsOut s [.invalidRadix, .invalidDigit, .outputOverflow, .badLength] t := by
  have h4 := s.cfg.four_le_inCap
  refine ⟨_, rfl, ?_⟩
  split
  · exact .inl ⟨.badLength, 0, by simp, by simp, by omega, rfl⟩
  · rename_i hb
    rw [Bool.not_eq_true, State.badLength_eq_false_iff] at hb
    split
    · exact .inl ⟨.invalidRadix, 0, by simp, by simp, by omega, rfl⟩
    · split
      · exact .inl ⟨.invalidRadix, 1, by simp, by simp, by omega, rfl⟩
      · split
        · rename_i i hi
          obtain ⟨hlt, -⟩ := firstIllegalDigit_eq_some.mp hi
          rw [State.inputBytes_length] at hlt
          exact .inl ⟨.invalidDigit, i, by simp, by simp, by omega, rfl⟩
        · dsimp only
          split
          · exact .inl ⟨.outputOverflow, 0, by simp, by simp, by omega, rfl⟩
          · exact .inr ⟨_, by omega, rfl⟩

theorem execEenc_ends (s : State) : ∃ t, execEenc s = .next t ∧ EndsOut s [.badLength] t := by
  have h4 := s.cfg.four_le_inCap
  refine ⟨_, rfl, ?_⟩
  split
  · exact .inl ⟨.badLength, 0, by simp, by simp, by omega, rfl⟩
  · rename_i hb
    rw [Bool.not_eq_true, State.badLength_eq_false_iff] at hb
    refine .inr ⟨_, ?_, rfl⟩
    have := escapeEncode_length_le s.variant s.inputBytes
    rw [State.inputBytes_length] at this
    rw [Config.outCap_eq]
    omega

theorem execEdec_ends (s : State) : ∃ t, execEdec s = .next t ∧ EndsOut s [.malformedPayload, .badLength] t := by
  have h4 := s.cfg.four_le_inCap
  refine ⟨_, rfl, ?_⟩
  split
  · exact .inl ⟨.badLength, 0, by simp, by simp, by omega, rfl⟩
  · rename_i hb
    rw [Bool.not_eq_true, State.badLength_eq_false_iff] at hb
    split
    · rename_i pos hp
      have := escapeScan_malformed_lt hp
      rw [State.inputBytes_length] at this
      exact .inl ⟨.malformedPayload, pos, by simp, by simp, by omega, rfl⟩
    · rename_i o ho
      refine .inr ⟨o, ?_, rfl⟩
      have := escapeScan_length_le ho
      rw [State.inputBytes_length] at this
      rw [Config.outCap_eq]
      omega

/-- What the engine's step can be, whatever the command: every command answers a next state, and that state is one of
these. Later proofs cite this instead of unfolding a meaning. -/
theorem exec_cases (i : Instr) (s : State) : ∃ t, exec i s = .next t ∧
    ((∃ e p, (e = .ok → p = 0) ∧ p < s.cfg.inCap ∧ t = s.complete e p) ∨
    (i = .senc ∧ ∃ w, t = { s with safe := w }.complete .ok 0) ∨
    (i = .sdec ∧ ∃ w, t = { s with value := w }.complete .ok 0) ∨
    ((i = .conv ∨ i = .eenc ∨ i = .edec) ∧ ∃ codes, EndsOut s codes t)) := by
  have h4 := s.cfg.four_le_inCap
  cases i with
  | nop => exact ⟨_, rfl, .inl ⟨.ok, 0, by simp, by omega, rfl⟩⟩
  | conv =>
    obtain ⟨t, ht, he⟩ := execConv_ends s
    exact ⟨t, ht, .inr (.inr (.inr ⟨by simp, _, he⟩))⟩
  | senc =>
    rcases execSenc_cases s with ⟨-, h⟩ | ⟨-, h⟩
    · exact ⟨_, h, .inr (.inl ⟨rfl, _, rfl⟩)⟩
    · exact ⟨_, h, .inl ⟨_, 0, by simp, by omega, rfl⟩⟩
  | sdec =>
    rcases execSdec_cases s with ⟨k, hk, h⟩ | ⟨-, k, hk, h⟩ | ⟨-, -, h⟩
    · exact ⟨_, h, .inl ⟨_, k, by simp, by have := (firstSafeByte_eq_some.mp hk).1; omega, rfl⟩⟩
    · exact ⟨_, h, .inl ⟨_, k, by simp, by have := (firstSafeByte_eq_some.mp hk).1; omega, rfl⟩⟩
    · exact ⟨_, h, .inr (.inr (.inl ⟨rfl, _, rfl⟩))⟩
  | eenc =>
    obtain ⟨t, ht, he⟩ := execEenc_ends s
    exact ⟨t, ht, .inr (.inr (.inr ⟨by simp, _, he⟩))⟩
  | edec =>
    obtain ⟨t, ht, he⟩ := execEdec_ends s
    exact ⟨t, ht, .inr (.inr (.inr ⟨by simp, _, he⟩))⟩

/-- The length of a result that fits is what OUT_LEN holds. -/
theorem outLen_toNat {c : Config} {n : Nat} (h : n ≤ c.outCap) : (BitVec.ofNat 18 n).toNat = n := by
  have h1 := c.inCap_le
  have h2 := c.outCap_eq
  rw [BitVec.toNat_ofNat, Nat.mod_eq_of_lt]
  omega

/-- A position that is an index of IN is what ERR_POS holds. -/
theorem errPos_toNat {c : Config} {p : Nat} (h : p < c.inCap) : (BitVec.ofNat 17 p).toNat = p := by
  have h1 := c.inCap_le
  rw [BitVec.toNat_ofNat, Nat.mod_eq_of_lt]
  omega

/-- The result bytes after a successful CONV, EENC or EDEC (R35). -/
theorem State.outputBytes_succeedOut {s : State} {o : List Byte} (h : o.length ≤ s.cfg.outCap) :
    (s.succeedOut o).outputBytes = o := by
  unfold State.outputBytes
  rw [State.succeedOut_outLen, State.succeedOut_outBuf, outLen_toNat h]
  exact Memory.bytes_holding _ _

/-- CONV once its checks have passed (R79). -/
theorem execConv_eq {s : State} (hn : s.inLen.toNat ≤ s.cfg.inCap) (hf : legalRadix s.fromBase.toNat = true)
    (ht : legalRadix s.toBase.toNat = true) (hd : ∀ x ∈ s.inputBytes, x.toNat < s.fromBase.toNat) :
    execConv s = .next
      (if s.cfg.outCap < (minimalDigits s.toBase.toNat (digitsValue s.fromBase.toNat s.inputBytes)).length
        then s.failOut .outputOverflow 0
        else s.succeedOut (minimalDigits s.toBase.toNat (digitsValue s.fromBase.toNat s.inputBytes))) := by
  unfold execConv
  rw [if_neg (by simpa [State.badLength] using hn), if_neg (by simp [hf]), if_neg (by simp [ht]),
    firstIllegalDigit_eq_none.mpr hd]

/-- EENC of a length that IN holds (R114). -/
theorem execEenc_eq {s : State} (h : s.inLen.toNat ≤ s.cfg.inCap) :
    execEenc s = .next (s.succeedOut (escapeEncode s.variant s.inputBytes)) := by
  rw [execEenc, if_neg (by simpa [State.badLength] using h)]

/-- EDEC of a length that IN holds (R115). -/
theorem execEdec_eq {s : State} (h : s.inLen.toNat ≤ s.cfg.inCap) :
    execEdec s = .next
      (match escapeScan s.variant 0 s.inputBytes with
      | .malformed pos => s.failOut .malformedPayload pos
      | .decoded o => s.succeedOut o) := by
  have hb : ¬ s.badLength = true := by simpa [State.badLength] using h
  exact congrArg Host.Outcome.next (if_neg hb)

/-- EENC's result fits into OUT (R114). -/
theorem escapeEncode_fits {s : State} (h : s.inLen.toNat ≤ s.cfg.inCap) :
    (escapeEncode s.variant s.inputBytes).length ≤ s.cfg.outCap := by
  have := escapeEncode_length_le s.variant s.inputBytes
  rw [State.inputBytes_length] at this
  rw [Config.outCap_eq]
  omega

/-- EDEC's result fits into OUT (R115). -/
theorem escapeScan_fits {s : State} (h : s.inLen.toNat ≤ s.cfg.inCap) {o : List Byte}
    (ho : escapeScan s.variant 0 s.inputBytes = .decoded o) : o.length ≤ s.cfg.outCap := by
  have := escapeScan_length_le ho
  rw [State.inputBytes_length] at this
  rw [Config.outCap_eq]
  omega

end Sys2Proof.Machine
end

