-- ==== Sys2Proof/Laws/Bus.lean ====
section
/-! SUPPORT. The laws of the bus port: where an access lands (20_memory.md R42 to R45), and what a read and a write can do
to the state. -/

namespace Sys2Proof.Machine

theorem AccessSize.bytes_pos (z : AccessSize) : 0 < z.bytes := by cases z <;> decide

/-- A register is reached by an aligned 4-byte access at its offset, and by no other (R43). -/
theorem locate_reg_iff {cfg : Config} {off : Offset} {size : AccessSize} {r : Reg} :
    locate cfg off size = some (.reg r) ↔
      off.toNat < 0x34 ∧ size = .four ∧ off.toNat % 4 = 0 ∧ registerAt (off.toNat / 4) = some r := by
  unfold locate
  simp only
  split
  · split
    · simp_all
    · simp_all
  · split
    · split <;> simp_all
    · split
      · split <;> simp_all
      · simp_all

/-- IN[i] is reached by a naturally aligned access at its offset, and by no other (R42, R44). -/
theorem locate_inBuf_iff {cfg : Config} {off : Offset} {size : AccessSize} {i : Nat} :
    locate cfg off size = some (.inBuf i) ↔
      off.toNat = 0x10000 + i ∧ i < cfg.inCap ∧ off.toNat % size.bytes = 0 := by
  have hc := cfg.inCap_le
  unfold locate inWindow outWindow
  simp only
  split
  · split
    · constructor
      · cases registerAt (off.toNat / 4) <;> simp
      · omega
    · simp
      omega
  · split
    · split
      · simp
        omega
      · simp
        omega
    · split
      · split
        · simp
          omega
        · simp
          omega
      · simp
        omega

/-- OUT[i] is reached by a naturally aligned access at its offset, and by no other (R42, R44). -/
theorem locate_outBuf_iff {cfg : Config} {off : Offset} {size : AccessSize} {i : Nat} :
    locate cfg off size = some (.outBuf i) ↔
      off.toNat = 0x20000 + i ∧ i < cfg.outCap ∧ off.toNat % size.bytes = 0 := by
  have hc := cfg.inCap_le
  unfold locate inWindow outWindow
  simp only
  split
  · split
    · constructor
      · cases registerAt (off.toNat / 4) <;> simp
      · omega
    · simp
      omega
  · split
    · split
      · simp
        omega
      · simp
        omega
    · split
      · split
        · simp
          omega
        · simp
          omega
      · simp
        omega

/-- An aligned access that starts inside a buffer's valid part also ends inside it (R44). -/
theorem aligned_end {cap i n : Nat} (h4 : cap % 4 = 0) (hn : n = 1 ∨ n = 2 ∨ n = 4) (hi : i < cap) (ha : i % n = 0) :
    i + n ≤ cap := by
  rcases hn with rfl | rfl | rfl <;> omega

theorem AccessSize.bytes_cases (z : AccessSize) : z.bytes = 1 ∨ z.bytes = 2 ∨ z.bytes = 4 := by
  cases z <;> simp [AccessSize.bytes]

/-- The bytes of an IN access all lie in IN (R44). -/
theorem locate_inBuf_end {cfg : Config} {off : Offset} {size : AccessSize} {i : Nat}
    (h : locate cfg off size = some (.inBuf i)) : i + size.bytes ≤ cfg.inCap := by
  obtain ⟨ho, hi, ha⟩ := locate_inBuf_iff.mp h
  refine aligned_end cfg.inCap_mod_four size.bytes_cases hi ?_
  rcases size.bytes_cases with hz | hz | hz <;> rw [hz] at ha ⊢ <;> omega

/-- The words CTRL and STATUS are found at offsets 4 and 12 only, and so each register at its own (R42). -/
theorem registerAt_iff {k : Nat} {r : Reg} : registerAt k = some r ↔
    k = match r with
      | .id => 0 | .ctrl => 1 | .cmd => 2 | .status => 3 | .fromBase => 4 | .toBase => 5 | .inLen => 6
      | .outLen => 7 | .value => 8 | .safe => 9 | .errPos => 10 | .inCap => 11 | .outCap => 12 := by
  constructor
  · unfold registerAt
    split <;> rintro ⟨⟩ <;> rfl
  · rintro rfl
    cases r <;> rfl

/-- A read changes the model's own fields only (R49). -/
theorem State.busRead_cases (s : State) (off : Offset) (size : AccessSize) :
    ∃ r d, s.busRead off size = { s with draws := d, response := some r } ∧ (d = s.draws ∨ d = s.draws + 1) := by
  unfold State.busRead
  split
  · exact ⟨_, s.draws, rfl, .inl rfl⟩
  · split
    · exact ⟨_, s.draws + 1, rfl, .inr rfl⟩
    · exact ⟨_, s.draws, rfl, .inl rfl⟩

/-- What a write that is answered with done can be: nothing, a dropped write, a soft reset, an issue, a STATUS write, a
register field or IN bytes (R22 to R35, R66, R69, R150). -/
inductive WriteEffect (s : State) (off : Offset) (d : BusData) : State → Prop where
  /-- A read-only register or OUT. -/
  | ignored : WriteEffect s off d s
  /-- Dropped while busy. -/
  | dropped (h : s.busy = true) : WriteEffect s off d s.dropWrite
  /-- CTRL with bit 31 set. -/
  | softReset (w : Word) (ho : off = 0x004) (hd : d = .word w) (h31 : w.getLsbD 31 = true) :
      WriteEffect s off d s.toResetValues
  /-- CTRL with bit 31 clear. -/
  | ctrl (w : Word) (ho : off = 0x004) (hd : d = .word w) (h31 : w.getLsbD 31 = false) (hb : s.busy = false) :
      WriteEffect s off d (s.writeCtrlFields w)
  /-- CMD. -/
  | issue (w : Word) (ho : off = 0x008) (hd : d = .word w) (hb : s.busy = false) : WriteEffect s off d (s.issue w)
  /-- STATUS. -/
  | status (w : Word) (ho : off = 0x00C) (hd : d = .word w) : WriteEffect s off d (s.writeStatus w)
  /-- FROM_BASE. -/
  | fromBase (b : BitVec 9) (hb : s.busy = false) : WriteEffect s off d { s with fromBase := b }
  /-- TO_BASE. -/
  | toBase (b : BitVec 9) (hb : s.busy = false) : WriteEffect s off d { s with toBase := b }
  /-- IN_LEN. -/
  | inLen (n : BitVec 17) (hb : s.busy = false) : WriteEffect s off d { s with inLen := n }
  /-- VALUE. -/
  | value (w : Word) (hb : s.busy = false) : WriteEffect s off d { s with value := w }
  /-- SAFE. -/
  | safe (w : Word) (hb : s.busy = false) : WriteEffect s off d { s with safe := w }
  /-- IN bytes. -/
  | inBuf (i : Nat) (hl : locate s.cfg off d.size = some (.inBuf i)) (hb : s.busy = false) :
      WriteEffect s off d { s with inBuf := s.inBuf.store i d }

theorem State.unlessBusy_cases (s e : State) :
    (s.busy = true ∧ s.unlessBusy e = s.dropWrite) ∨ (s.busy = false ∧ s.unlessBusy e = e) := by
  unfold State.unlessBusy
  cases h : s.busy <;> simp

/-- What a write can do to the state, said once. -/
theorem State.writeTarget_effect {s : State} {off : Offset} {d : BusData} {t : Target}
    (h : locate s.cfg off d.size = some t) : WriteEffect s off d (s.writeTarget d t) := by
  have hoff : ∀ {n : Nat}, off.toNat = n → off = BitVec.ofNat 18 n := fun hn => by
    rw [← hn, BitVec.ofNat_toNat, BitVec.setWidth_eq]
  cases t with
  | outBuf i => exact .ignored
  | inBuf i =>
    rcases s.unlessBusy_cases { s with inBuf := s.inBuf.store i d } with ⟨hb, he⟩ | ⟨hb, he⟩
    · exact (show s.writeTarget d (.inBuf i) = s.dropWrite from he) ▸ .dropped hb
    · rw [show s.writeTarget d (.inBuf i) = _ from he]
      exact .inBuf i h hb
  | reg r =>
    obtain ⟨-, hz, ha, hr⟩ := locate_reg_iff.mp h
    cases d with
    | byte b => simp [BusData.size] at hz
    | half x => simp [BusData.size] at hz
    | word w =>
      show WriteEffect s off _ (s.writeReg w r)
      rw [registerAt_iff] at hr
      cases r with
      | id => exact .ignored
      | outLen => exact .ignored
      | errPos => exact .ignored
      | inCap => exact .ignored
      | outCap => exact .ignored
      | ctrl =>
        have ho := hoff (n := 4) (by simp only at hr; omega)
        simp only [State.writeReg]
        cases h31 : w.getLsbD 31 with
        | true =>
          rw [if_pos (by simpa [softResetBit] using h31)]
          exact .softReset w ho rfl h31
        | false =>
          rw [if_neg (by simpa [softResetBit] using h31)]
          rcases s.unlessBusy_cases (s.writeCtrlFields w) with ⟨hb, he⟩ | ⟨hb, he⟩ <;> rw [he]
          · exact .dropped hb
          · exact .ctrl w ho rfl h31 hb
      | cmd =>
        have ho := hoff (n := 8) (by simp only at hr; omega)
        simp only [State.writeReg]
        rcases s.unlessBusy_cases (s.issue w) with ⟨hb, he⟩ | ⟨hb, he⟩ <;> rw [he]
        · exact .dropped hb
        · exact .issue w ho rfl hb
      | status =>
        have ho := hoff (n := 12) (by simp only at hr; omega)
        exact .status w ho rfl
      | fromBase =>
        simp only [State.writeReg]
        rcases s.unlessBusy_cases { s with fromBase := w.extractLsb' 0 9 } with ⟨hb, he⟩ | ⟨hb, he⟩ <;> rw [he]
        · exact .dropped hb
        · exact .fromBase _ hb
      | toBase =>
        simp only [State.writeReg]
        rcases s.unlessBusy_cases { s with toBase := w.extractLsb' 0 9 } with ⟨hb, he⟩ | ⟨hb, he⟩ <;> rw [he]
        · exact .dropped hb
        · exact .toBase _ hb
      | inLen =>
        simp only [State.writeReg]
        rcases s.unlessBusy_cases { s with inLen := w.extractLsb' 0 17 } with ⟨hb, he⟩ | ⟨hb, he⟩ <;> rw [he]
        · exact .dropped hb
        · exact .inLen _ hb
      | value =>
        simp only [State.writeReg]
        rcases s.unlessBusy_cases { s with value := w } with ⟨hb, he⟩ | ⟨hb, he⟩ <;> rw [he]
        · exact .dropped hb
        · exact .value _ hb
      | safe =>
        simp only [State.writeReg]
        rcases s.unlessBusy_cases { s with safe := w } with ⟨hb, he⟩ | ⟨hb, he⟩ <;> rw [he]
        · exact .dropped hb
        · exact .safe _ hb

/-- A write is answered by an error and does nothing, or by done after one of the effects. -/
theorem State.busWrite_cases (s : State) (off : Offset) (d : BusData) :
    (locate s.cfg off d.size = none ∧ s.busWrite off d = s.answer .error) ∨
    (∃ u, WriteEffect s off d u ∧ s.busWrite off d = u.answer .done) := by
  unfold State.busWrite
  cases h : locate s.cfg off d.size with
  | none => exact .inl ⟨rfl, rfl⟩
  | some t => exact .inr ⟨_, State.writeTarget_effect h, rfl⟩

end Sys2Proof.Machine
end

