-- ==== Sys2Proof/Laws/Decode.lean ====
section
/-! SUPPORT. The laws of the command word's fields (30_encoding.md R60, R61). -/

namespace Sys2Proof

/-- The two fields make up the whole word: no bit of a command word is dropped (R60). -/
theorem CommandFields.toWord_ofWord (w : Word) : (CommandFields.ofWord w).toWord = w := by
  apply BitVec.eq_of_getLsbD_eq
  intro k hk
  simp only [CommandFields.ofWord, CommandFields.toWord, BitVec.getLsbD_append, BitVec.getLsbD_extractLsb']
  by_cases h8 : k < 8
  · simp [h8]
  · simp [h8, show 8 + (k - 8) = k by omega, show k - 8 < 24 by omega]

/-- No opcode from 6 on is assigned (R62). -/
theorem opcodeInstr_none {n : Nat} (h : 6 ≤ n) : opcodeInstr n = none := by
  unfold opcodeInstr
  split <;> first | omega | rfl

end Sys2Proof
end

