-- ==== Sys2Proof/Laws/PerInstr.lean ====
section
/-! SUPPORT. What is said of each instruction as syntax, one theorem per constructor. -/

namespace Sys2Proof.Laws.Encoding

/-- The fields of an instruction's word are those of a command of the table: RSV is 0 and the opcode is assigned
(30_encoding.md R60, R61). -/
def Statement (i : Instr) : Prop := (CommandFields.ofWord (encode i)).wf = true

theorem nop : Statement .nop := rfl

theorem conv : Statement .conv := rfl

theorem senc : Statement .senc := rfl

theorem sdec : Statement .sdec := rfl

theorem eenc : Statement .eenc := rfl

theorem edec : Statement .edec := rfl

end Sys2Proof.Laws.Encoding
end

