-- ==== Sys2Proof/Laws/SafeRadix.lean ====
section
/-! SUPPORT. The agreement of the safe re-mapper with the radix converter (42_safe_remapper.md R98, law 5). -/

namespace Sys2Proof.Machine

theorem digitsValue_replicate_zero (base n : Nat) : digitsValue base (List.replicate n (0 : Byte)) = 0 := by
  induction n with
  | zero => rfl
  | succ n ih =>
    rw [List.replicate_succ, digitsValue_cons, ih]
    simp

/-- The bytes of a 32-bit value, most significant first, have it as their value in base 256. -/
theorem digitsValue_bytes (w : Word) :
    digitsValue 256 [w.extractLsb' 24 8, w.extractLsb' 16 8, w.extractLsb' 8 8, w.extractLsb' 0 8] = w.toNat := by
  have := w.isLt
  simp only [digitsValue, List.foldl, BitVec.extractLsb'_toNat, Nat.shiftRight_eq_div_pow]
  omega

/-- An encodable value has at most 4 digits in base R, and no other value has (R91). -/
theorem minimalDigits_radix_length_le (var : Variant) (v : Nat) :
    (minimalDigits var.radix v).length ≤ 4 ↔ v < var.radix ^ 4 := by
  have h1 := var.le_radix
  have h2 := var.radix_le
  rw [(minimalDigits_minimal (by omega) (by omega)).length_le_iff (by omega),
    digitsValue_minimalDigits (by omega) (by omega)]

/-- A 32-bit value that is not encodable has 5 digits in base R (R98, law 5). -/
theorem minimalDigits_radix_length_five (var : Variant) {v : Nat} (h : var.radix ^ 4 ≤ v) (hv : v < 2 ^ 32) :
    (minimalDigits var.radix v).length = 5 := by
  have h1 := var.le_radix
  have h2 := var.radix_le
  have h4 := minimalDigits_radix_length_le var v
  have h5 : (minimalDigits var.radix v).length ≤ 5 := by
    rw [(minimalDigits_minimal (by omega) (by omega)).length_le_iff (by omega),
      digitsValue_minimalDigits (by omega) (by omega)]
    calc v < 2 ^ 32 := hv
      _ ≤ 254 ^ 5 := by norm_num
      _ ≤ var.radix ^ 5 := Nat.pow_le_pow_left h1 5
  omega

/-- The digits of an encodable value in base R, padded on the left to 4 with zeros, with 1 added to each, are the bytes of its
encoding (R98, law 5). -/
theorem minimalDigits_padded_eq_safeEncode (var : Variant) {v k : Nat} (h : v < var.radix ^ 4) (hk : k < 4) :
    ((List.replicate (4 - (minimalDigits var.radix v).length) (0 : Byte) ++ minimalDigits var.radix v).getD k 0).toNat + 1 =
      (safeByte (safeEncode var.radix v) k).toNat := by
  have h1 := var.le_radix
  have h2 := var.radix_le
  have hl := (minimalDigits_radix_length_le var v).mpr h
  have hm := minimalDigits_minimal (base := var.radix) (v := v) (by omega) (by omega)
  have hd := digitsValue_minimalDigits (base := var.radix) (v := v) (by omega) (by omega)
  rw [safeByte_of_safeEncode hk, encodedByte_toNat]
  generalize minimalDigits var.radix v = r at *
  have hpl : (List.replicate (4 - r.length) (0 : Byte) ++ r).length = 4 := by
    simp
    omega
  have hpv : digitsValue var.radix (List.replicate (4 - r.length) (0 : Byte) ++ r) = v := by
    rw [digitsValue_append, digitsValue_replicate_zero, hd]
    simp
  have hpd : ∀ x ∈ List.replicate (4 - r.length) (0 : Byte) ++ r, x.toNat < var.radix := by
    intro x hx
    rcases List.mem_append.mp hx with hx | hx
    · rw [(List.mem_replicate.mp hx).2]
      exact var.radix_pos
    · exact hm.1 x hx
  generalize List.replicate (4 - r.length) (0 : Byte) ++ r = p at *
  match p, hpl with
  | [a, b, c, d], _ =>
    have hsum : v = a.toNat * var.radix ^ 3 + b.toNat * var.radix ^ 2 + c.toNat * var.radix + d.toNat := by
      rw [← hpv]
      simp [digitsValue_cons]
      ring
    obtain ⟨e0, e1, e2, e3⟩ := digits_of_sum (hpd a (by simp)) (hpd b (by simp)) (hpd c (by simp)) (hpd d (by simp))
    rw [← hsum] at e0 e1 e2 e3
    interval_cases k <;> simp_all

end Sys2Proof.Machine
end

