-- ==== Sys2Proof/Laws/Step.lean ====
section
/-! SUPPORT. What one step can be, said once: one theorem for each event, and the inversion of a step that answers a next
state. -/

namespace Sys2Proof.Machine

theorem step_eq {s : State} {e : Input} (h : s.nextInput = e) : step s = applyInput s.turn e := by rw [step, h]

theorem busAccess_ready {s t : State} (h : s.phase = .ready) : busAccess s t = .next t := by simp [busAccess, h]

theorem busAccess_next {s t u : State} (h : busAccess s t = .next u) : s.phase = .ready ∧ u = t := by
  unfold busAccess at h
  split at h
  · cases h
    exact ⟨‹_›, rfl⟩
  · cases h
  · cases h

theorem step_read {s : State} {off : Offset} {size : AccessSize} (hp : s.phase = .ready)
    (h : s.nextInput = .read off size) : step s = .next (s.turn.busRead off size) := by
  rw [step_eq h, applyInput, busAccess_ready (by simpa using hp)]

theorem step_write {s : State} {off : Offset} {d : BusData} (hp : s.phase = .ready)
    (h : s.nextInput = .write off d) : step s = .next (s.turn.busWrite off d) := by
  rw [step_eq h, applyInput, busAccess_ready (by simpa using hp)]

theorem step_engine {s : State} {w : Word} (hp : s.phase = .ready) (h : s.nextInput = .engine)
    (hw : s.pend = some w) : step s =
      match decode w with
      | .command i => exec i s.turn
      | .illegal _ => .next (runIllegal s.turn) := by
  have hp' : s.turn.phase = .ready := hp
  have hw' : s.turn.pend = some w := hw
  rw [step_eq h, applyInput]
  unfold engineStep
  cases hd : decode w <;> simp only [hp', hw', hd]

/-- The engine takes no step where nothing is pending, in reset, and without power (R67). -/
theorem step_engine_idle {s : State} (h : s.nextInput = .engine) (hi : s.phase ≠ .ready ∨ s.pend = none) :
    step s = .next s.turn := by
  rw [step_eq h, applyInput, engineStep, State.turn_phase, State.turn_pend]
  rcases hi with hi | hi
  · cases hp : s.phase with
    | ready => exact absurd hp hi
    | inReset => rfl
    | powerLost => rfl
  · rw [hi]
    cases s.phase <;> rfl

/-- What a step that answers a next state can be. -/
inductive StepKind (s : State) : State → Prop where
  | read (off : Offset) (size : AccessSize) (he : s.nextInput = .read off size) (hp : s.phase = .ready) :
      StepKind s (s.turn.busRead off size)
  | write (off : Offset) (d : BusData) (he : s.nextInput = .write off d) (hp : s.phase = .ready) :
      StepKind s (s.turn.busWrite off d)
  | idle (he : s.nextInput = .engine) (hi : s.phase ≠ .ready ∨ s.pend = none) : StepKind s s.turn
  | command (w : Word) (i : Instr) (he : s.nextInput = .engine) (hp : s.phase = .ready) (hw : s.pend = some w)
      (hd : decode w = .command i) (t : State) (ht : exec i s.turn = .next t) : StepKind s t
  | illegal (w : Word) (r : IllegalCommand) (he : s.nextInput = .engine) (hp : s.phase = .ready) (hw : s.pend = some w)
      (hd : decode w = .illegal r) : StepKind s (runIllegal s.turn)
  | assertReset (he : s.nextInput = .assertReset) : StepKind s s.turn.assertReset
  | releaseReset (he : s.nextInput = .releaseReset) : StepKind s s.turn.releaseReset
  | powerLoss (he : s.nextInput = .powerLoss) : StepKind s s.turn.losePower

/-- The inversion of a step (R50, R67): later proofs cite this instead of unfolding `step`. -/
theorem step_cases {s t : State} (h : step s = .next t) : StepKind s t := by
  cases he : s.nextInput with
  | read off size =>
    rw [step_eq he, applyInput] at h
    obtain ⟨hp, rfl⟩ := busAccess_next h
    exact .read off size he (by simpa using hp)
  | write off d =>
    rw [step_eq he, applyInput] at h
    obtain ⟨hp, rfl⟩ := busAccess_next h
    exact .write off d he (by simpa using hp)
  | engine =>
    by_cases hi : s.phase ≠ .ready ∨ s.pend = none
    · rw [step_engine_idle he hi] at h
      cases h
      exact .idle he hi
    · rw [not_or, not_ne_iff] at hi
      obtain ⟨hp, hn⟩ := hi
      obtain ⟨w, hw⟩ := Option.ne_none_iff_exists'.mp hn
      rw [step_engine hp he hw] at h
      cases hd : decode w with
      | command i =>
        rw [hd] at h
        exact .command w i he hp hw hd t h
      | illegal r =>
        rw [hd] at h
        cases h
        exact .illegal w r he hp hw hd
  | assertReset =>
    rw [step_eq he] at h
    cases h
    exact .assertReset he
  | releaseReset =>
    rw [step_eq he] at h
    cases h
    exact .releaseReset he
  | powerLoss =>
    rw [step_eq he] at h
    cases h
    exact .powerLoss he

/-- A step refuses a bus access outside the ready phase, and nothing else; no step faults (U8, U9). -/
theorem step_total (s : State) : (∃ t, step s = .next t) ∨ (s.phase ≠ .ready ∧ ∃ r, step s = .refused r) := by
  cases he : s.nextInput with
  | read off size =>
    rw [step_eq he, applyInput, busAccess, State.turn_phase]
    cases s.phase <;> simp
  | write off d =>
    rw [step_eq he, applyInput, busAccess, State.turn_phase]
    cases s.phase <;> simp
  | engine =>
    refine .inl ?_
    by_cases hi : s.phase ≠ .ready ∨ s.pend = none
    · exact ⟨_, step_engine_idle he hi⟩
    · rw [not_or, not_ne_iff] at hi
      obtain ⟨w, hw⟩ := Option.ne_none_iff_exists'.mp hi.2
      rw [step_engine hi.1 he hw]
      cases decode w with
      | command i =>
        obtain ⟨t, ht, -⟩ := exec_cases i s.turn
        exact ⟨t, ht⟩
      | illegal r => exact ⟨_, rfl⟩
  | assertReset => exact .inl ⟨_, step_eq he⟩
  | releaseReset => exact .inl ⟨_, step_eq he⟩
  | powerLoss => exact .inl ⟨_, step_eq he⟩

/-! ### Runs -/

theorem run_succ_next {M : Host.Core} {s u : M.State} (k : Nat) (h : M.step s = .next u) : M.run (k + 1) s = M.run k u := by
  rw [Host.Core.run.eq_def]
  simp only [h]

theorem run_succ_refused {M : Host.Core} {s : M.State} {r : M.Refusal} (k : Nat) (h : M.step s = .refused r) :
    M.run (k + 1) s = .refused r := by
  rw [Host.Core.run.eq_def]
  simp only [h]

theorem core_run_next {s u : State} (k : Nat) (h : step s = .next u) :
    Sys2Proof.core.run (k + 1) s = Sys2Proof.core.run k u := run_succ_next (M := Sys2Proof.core) k h

theorem core_run_refused {s : State} {r : Refusal} (k : Nat) (h : step s = .refused r) :
    Sys2Proof.core.run (k + 1) s = .refused r := run_succ_refused (M := Sys2Proof.core) k h

/-! ### Register accesses -/

/-- A register stands at its offset, whatever the parameters (R42). -/
theorem locate_registers (cfg : Config) :
    locate cfg 0x000 .four = some (.reg .id) ∧ locate cfg 0x004 .four = some (.reg .ctrl) ∧
    locate cfg 0x008 .four = some (.reg .cmd) ∧ locate cfg 0x00C .four = some (.reg .status) ∧
    locate cfg 0x010 .four = some (.reg .fromBase) ∧ locate cfg 0x014 .four = some (.reg .toBase) ∧
    locate cfg 0x018 .four = some (.reg .inLen) ∧ locate cfg 0x01C .four = some (.reg .outLen) ∧
    locate cfg 0x020 .four = some (.reg .value) ∧ locate cfg 0x024 .four = some (.reg .safe) ∧
    locate cfg 0x028 .four = some (.reg .errPos) ∧ locate cfg 0x02C .four = some (.reg .inCap) ∧
    locate cfg 0x030 .four = some (.reg .outCap) :=
  ⟨rfl, rfl, rfl, rfl, rfl, rfl, rfl, rfl, rfl, rfl, rfl, rfl, rfl⟩

/-- A register read of a register whose value is defined at the time (R49, R70). -/
theorem step_readReg {s : State} {off : Offset} {r : Reg} (hl : locate s.cfg off .four = some (.reg r))
    (hp : s.phase = .ready) (ho : (Target.reg r).openWhileBusy = false ∨ s.busy = false)
    (he : s.nextInput = .read off .four) :
    step s = .next (s.turn.answer (.data (.word (s.readReg r)))) := by
  have hl' : locate s.turn.cfg off .four = some (.reg r) := hl
  have hb : s.turn.busy = s.busy := rfl
  rw [step_read hp he]
  simp only [State.busRead, hl', hb]
  rw [if_neg (by rcases ho with h | h <;> simp [h])]
  cases r <;> rfl

/-- A register write (R43, R48). -/
theorem step_writeReg {s : State} {off : Offset} {r : Reg} {w : Word} (hl : locate s.cfg off .four = some (.reg r))
    (hp : s.phase = .ready) (he : s.nextInput = .write off (.word w)) :
    step s = .next ((s.turn.writeReg w r).answer .done) := by
  have hl' : locate s.turn.cfg off .four = some (.reg r) := hl
  rw [step_write hp he]
  simp only [State.busWrite, BusData.size, hl']
  rfl

end Sys2Proof.Machine
end

