-- ==== Sys2Proof/Machine/HostNotation.lean ====
section
/-! DEFINITION. The syntax of commands (30_encoding.md R64) and the host notation of the test programs (R65). The host
notation "is a test harness, not part of the block": `step` does not use this file. It stands on the same bus
transactions and engine step as the block. -/

namespace Sys2Proof.Machine

/-- One of the host registers h0 to h7 (R65). -/
abbrev HostReg := Fin 8

/-- An operand written x or y: a host register or an immediate (R65). -/
inductive HostOperand where
  | reg (r : HostReg)
  | imm (w : Word)
  deriving DecidableEq, Repr

/-- The forms of the host notation (R65). A label is the position of an instruction in the program. -/
inductive HostInstr where
  | li (hd : HostReg) (imm : Word)
  | addi (hd hs : HostReg) (imm : Word)
  | andi (hd hs : HostReg) (imm : Word)
  | srli (hd hs : HostReg) (imm : Nat)
  | sw (off : Offset) (x : HostOperand)
  | sb (off : Offset) (x : HostOperand)
  | sbx (base : Offset) (hi : HostReg) (x : HostOperand)
  | lw (hd : HostReg) (off : Offset)
  | lbx (hd : HostReg) (base : Offset) (hi : HostReg)
  | hsb (addr : Nat) (hi : HostReg) (x : HostOperand)
  | beq (ha : HostReg) (y : HostOperand) (label : Nat)
  | bne (ha : HostReg) (y : HostOperand) (label : Nat)
  | bltu (ha : HostReg) (y : HostOperand) (label : Nat)
  | halt
  deriving DecidableEq, Repr

/-- How a host program ended: by `halt`, or "in a fault state" by a bus error (R65). -/
inductive HostEnding where
  | halted
  | busFault
  deriving DecidableEq, Repr

/-- The host beside the block (R65): its registers, its memory HM as the bytes written so far, its program and position. -/
structure HostState where
  block : State
  regs : Vector Word 8
  hm : List Host.Cell
  program : List HostInstr
  pos : Nat
  ending : Option HostEnding
  deriving DecidableEq, Repr

/-- The start of a program (R65): h0 to h7 are 0, HM is empty. -/
def HostState.start (block : State) (program : List HostInstr) : HostState :=
  { block := block, regs := Vector.replicate 8 0, hm := [], program := program, pos := 0, ending := none }

/-- The value of a host register. -/
def HostState.reg (h : HostState) (r : HostReg) : Word := h.regs[r.val]

/-- The value of an operand. -/
def HostState.operand (h : HostState) : HostOperand → Word
  | .reg r => h.reg r
  | .imm w => w

/-- The position after the present instruction. -/
def HostState.advance (h : HostState) : HostState := { h with pos := h.pos + 1 }

/-- A host register is written and the host goes on. -/
def HostState.setReg (h : HostState) (r : HostReg) (w : Word) : HostState :=
  { h with regs := h.regs.set r.val w }.advance

/-- A conditional branch (R65). -/
def HostState.branch (h : HostState) (taken : Bool) (label : Nat) : HostState :=
  if taken then { h with pos := label } else h.advance

/-- The offset `base + hi` of `sbx` and `lbx`, if it is an 18-bit offset of the block (entry 14). -/
def HostState.indexed (h : HostState) (base : Offset) (hi : HostReg) : Option Offset :=
  let o := base.toNat + (h.reg hi).toNat
  if o < 2 ^ 18 then some (BitVec.ofNat 18 o) else none

/-- The program ends in a fault state (R65). -/
def HostState.fail (h : HostState) : HostState := { h with ending := some .busFault }

/-- Data read from the bus, zero-extended to 32 bits (R65: `lw`, `lbx`). -/
def BusData.toWord : BusData → Word
  | .byte b => b.setWidth 32
  | .half x => x.setWidth 32
  | .word w => w

/-- A host access to the block, and how the host goes on with the data read (`onData`) or the acknowledged write
(`onDone`); a bus error ends the program (R65). -/
def HostState.access (h : HostState) (e : Input) (onData : HostState → Word → HostState)
    (onDone : HostState → HostState) : Host.Outcome HostState Fault Refusal :=
  match applyInput { h.block with response := none } e with
  | .next b =>
    let h' := { h with block := b }
    match b.response with
    | some (.data d) => .next (onData h' d.toWord)
    | some .done => .next (onDone h')
    | some .error => .next h'.fail
    | none => .next h'
  | .fault r => .fault r
  | .refused r => .refused r

/-- A host store. -/
def HostState.busStore (h : HostState) (off : Offset) (d : BusData) : Host.Outcome HostState Fault Refusal :=
  h.access (.write off d) (fun h' _ => h') HostState.advance

/-- A host load. -/
def HostState.busLoad (h : HostState) (hd : HostReg) (off : Offset) (size : AccessSize) :
    Host.Outcome HostState Fault Refusal :=
  h.access (.read off size) (fun h' w => h'.setReg hd w) id

/-- One host instruction (R65). -/
def hostInstr (h : HostState) : HostInstr → Host.Outcome HostState Fault Refusal
  | .li hd imm => .next (h.setReg hd imm)
  | .addi hd hs imm => .next (h.setReg hd (h.reg hs + imm))
  | .andi hd hs imm => .next (h.setReg hd (h.reg hs &&& imm))
  | .srli hd hs imm => .next (h.setReg hd (h.reg hs >>> imm))
  | .sw off x => h.busStore off (.word (h.operand x))
  | .sb off x => h.busStore off (.byte ((h.operand x).extractLsb' 0 8))
  | .sbx base hi x =>
    match h.indexed base hi with
    | some off => h.busStore off (.byte ((h.operand x).extractLsb' 0 8))
    | none => .next h.fail
  | .lw hd off => h.busLoad hd off .four
  | .lbx hd base hi =>
    match h.indexed base hi with
    | some off => h.busLoad hd off .one
    | none => .next h.fail
  | .hsb addr hi x =>
    .next { h with hm := insertCell (addr + (h.reg hi).toNat) ((h.operand x).extractLsb' 0 8) h.hm }.advance
  | .beq ha y label => .next (h.branch (h.reg ha == h.operand y) label)
  | .bne ha y label => .next (h.branch (h.reg ha != h.operand y) label)
  | .bltu ha y label => .next (h.branch (decide (h.reg ha < h.operand y)) label)
  | .halt => .next { h with ending := some .halted }

/-- The host moves: one instruction of a program that has not ended; a host with no instruction left stays (entry 14). -/
def hostMove (h : HostState) : Host.Outcome HostState Fault Refusal :=
  match h.ending with
  | some _ => .next h
  | none =>
    match h.program[h.pos]? with
    | some i => hostInstr h i
    | none => .next h

/-- The engine moves between two host instructions (R50, R67). -/
def HostState.engineMove (h : HostState) : Host.Outcome HostState Fault Refusal :=
  match engineStep { h.block with response := none } with
  | .next b => .next { h with block := b }
  | .fault r => .fault r
  | .refused r => .refused r

/-! ### Commands and pseudo-commands as host instructions (R64) -/

/-- A mnemonic stands for the bus write `Write(0x008, 4, w)` with `w` its command word. -/
def hostCommand (i : Instr) : HostInstr := .sw 0x008 (.imm (encode i))

/-- An illegal word, `cmd 0x<word>`. -/
def hostCommandWord (w : Word) : HostInstr := .sw 0x008 (.imm w)

/-- `conv F, T`. -/
def hostConv (f t : HostOperand) : List HostInstr := [.sw 0x010 f, .sw 0x014 t, hostCommand .conv]

/-- `senc V`. -/
def hostSenc (v : HostOperand) : List HostInstr := [.sw 0x020 v, hostCommand .senc]

/-- `sdec S`. -/
def hostSdec (x : HostOperand) : List HostInstr := [.sw 0x024 x, hostCommand .sdec]

/-- `variant k` (it writes IRQ_EN as 0). -/
def hostVariant (k : HostOperand) : List HostInstr := [.sw 0x004 k]

/-- `wait` at position `label`: it leaves in h7 the first STATUS read with BUSY = 0, and 0 in h6. -/
def hostWait (label : Nat) : List HostInstr := [.lw 7 0x00C, .andi 6 7 1, .bne 6 (.imm 0) label]

end Sys2Proof.Machine
end

