-- ==== Sys2Proof/Tests/Slice0.lean ====
section
/-! SUPPORT. Tests of the model on small states, one step each, and a witness for the hypotheses of every obligation that
has some. The expected results are rows of 95_test_vectors.md (named B, E, C, S, D, X, Y there) or words written out from
30_encoding.md. -/

namespace Sys2Proof.Tests

open Sys2Proof.Machine Sys2Proof.Claims

/-! ### Helpers -/

/-- IN_CAP = 4, the least capacity. -/
def tiny : Config := { inCapWordsLessOne := 0 }

/-- IN_CAP = 4096. -/
def page : Config := { inCapWordsLessOne := 1023 }

/-- The reset state with a variant, with bytes in IN and with IN_LEN their number. -/
def loaded (v : Variant) (x : List Byte) : State :=
  { State.reset with
    variant := v
    inBuf := { draw := 0, cells := cellsFrom 0 x }
    inLen := BitVec.ofNat 17 x.length }

/-- The same with two bases. -/
def based (f t : BitVec 9) (x : List Byte) : State := { loaded .v0 x with fromBase := f, toBase := t }

/-- The reset state with a variant and VALUE. -/
def valued (v : Variant) (w : Word) : State := { State.reset with variant := v, value := w }

/-- The reset state with a variant and SAFE. -/
def safed (v : Variant) (w : Word) : State := { State.reset with variant := v, safe := w }

/-- A state whose next event is `e`. -/
def before (e : Input) (s : State) : State := { s with inputs := [e] }

/-- A busy state. -/
def pending (w : Word) (s : State) : State := { s with pend := some w }

/-- The state a command leaves. -/
def after (i : Instr) (s : State) : State :=
  match exec i s with
  | .next t => t
  | .fault _ => s
  | .refused _ => s

/-- The state a step leaves. -/
def next (s : State) : State :=
  match step s with
  | .next t => t
  | .fault _ => s
  | .refused _ => s

theorem exec_after (i : Instr) (s : State) : exec i s = .next (after i s) := by cases i <;> rfl

/-- The port's answer to an access. -/
def answer (e : Input) (s : State) : Option BusResponse := (next (before e s)).response

/-- The word an access reads. -/
def reads (w : Word) : Option BusResponse := some (.data (.word w))

/-! ### Well-formedness and decoding -/

theorem test_wf_refuses_a_set_reserved_bit : CommandFields.wf { opcode := 0x01, rsv := 0x000001 } = false := by decide

theorem test_wf_refuses_an_unassigned_opcode : CommandFields.wf { opcode := 0x06, rsv := 0 } = false := by decide

theorem test_wf_accepts_the_last_opcode : CommandFields.wf { opcode := 0x05, rsv := 0 } = true := by decide

theorem test_decode_nop : decode 0b00000000000000000000000000000000 = .command .nop := by decide

theorem test_decode_conv : decode 0b00000000000000000000000000000001 = .command .conv := by decide

theorem test_decode_senc : decode 0b00000000000000000000000000000010 = .command .senc := by decide

theorem test_decode_sdec : decode 0b00000000000000000000000000000011 = .command .sdec := by decide

theorem test_decode_eenc : decode 0b00000000000000000000000000000100 = .command .eenc := by decide

theorem test_decode_edec : decode 0b00000000000000000000000000000101 = .command .edec := by decide

/-- E4 to E7. -/
theorem test_decode_illegal_words :
    decode 0x00000006 = .illegal .opcodeUnassigned ∧ decode 0x00000101 = .illegal .reservedBitsSet ∧
    decode 0xFFFFFFFF = .illegal .reservedBitsSet ∧ decode 0x000000FF = .illegal .opcodeUnassigned := by decide

theorem test_decode_table_word :
    decodeTableWord 32 3 = some .sdec ∧ decodeTableWord 32 6 = none ∧ decodeTableWord 8 5 = some .edec := by decide

/-- The word placed for the next step runs in it: STATUS is 2 and the result is the empty sequence (E2; L2.2's last row). -/
theorem test_placed_word_runs :
    (next (State.reset.withFetchWord 32 1)).statusWord = 0x2 ∧ (next (State.reset.withFetchWord 32 1)).outLen = 0 := by
  decide

/-! ### The commands -/

/-- E2. -/
theorem test_nop : (next (before .engine (pending 0x00000000 State.reset))).statusWord = 0x2 := by decide

/-- E5: the word 0x101 is not CONV. -/
theorem test_illegal_word : (next (before .engine (pending 0x00000101 (loaded .v0 [1, 0])))).statusWord = 0x806 ∧
    (next (before .engine (pending 0x00000101 (loaded .v0 [1, 0])))).outLen = 0 := by decide

/-- C20: wider than 64 bits in the middle. -/
theorem test_conv_wide :
    (after .conv (based 256 254 [1, 0, 0, 0, 0, 0, 0, 0, 0])).outputBytes =
      [0x01, 0x10, 0x71, 0xC6, 0x6F, 0x15, 0x12, 0x09, 0x02] := by decide

/-- C30 and C28. -/
theorem test_conv_errors :
    (after .conv (based 10 16 [3, 9, 0xA])).statusWord = 0x206 ∧ (after .conv (based 10 16 [3, 9, 0xA])).errPos = 2 ∧
    (after .conv (based 0 0 [1, 0])).statusWord = 0x106 ∧ (after .conv (based 0 0 [1, 0])).errPos = 0 := by decide

/-- S10 and S7. -/
theorem test_senc : (after .senc (valued .v0 8294400)).safe = 0x1F908101 ∧
    (after .senc (valued .v1 8294400)).safe = 0x108F8001 ∧ (after .senc (valued .v0 65535)).safe = 0x04050201 := by decide

/-- S12 and S15. -/
theorem test_senc_out_of_range : (after .senc { valued .v0 4162314256 with safe := 0x12345678 }).safe = 0x12345678 ∧
    (after .senc (valued .v0 4162314256)).statusWord = 0x506 := by decide

/-- D6 and D8. -/
theorem test_sdec : (after .sdec (safed .v0 0xFEFEFEFE)).value = 4162314255 ∧
    (after .sdec (safed .v1 0xFEFEFEFE)).value = 4211603968 ∧ (after .sdec (safed .v1 0x1F908101)).value = 8359695 := by
  decide

/-- D13 and D5: the zero check comes before the other. -/
theorem test_sdec_errors : (after .sdec (safed .v0 0xFF000101)).statusWord = 0x406 ∧
    (after .sdec (safed .v0 0xFF000101)).errPos = 2 ∧ (after .sdec (safed .v0 0xFF010101)).statusWord = 0x206 ∧
    (after .sdec (safed .v0 0xFF010101)).errPos = 3 := by decide

/-- X3 and X4. -/
theorem test_eenc :
    (after .eenc (loaded .v0 [0, 2, 3, 4, 0xFE, 0xFF])).outputBytes = [0xFE, 1, 2, 3, 4, 0xFE, 2, 0xFE, 3] ∧
    (after .eenc (loaded .v1 [0, 2, 3, 4, 0xFE, 0xFF])).outputBytes = [0xFE, 1, 2, 3, 4, 0xFE, 2, 0xFF] := by decide

/-- X10: IN_LEN above IN_CAP. -/
theorem test_eenc_bad_length : (after .eenc { State.reset with inLen := 65537 }).statusWord = 0x706 := by decide

/-- Y2 and Y5. -/
theorem test_edec :
    (after .edec (loaded .v0 [0xFE, 1, 2, 3, 4, 0xFE, 2, 0xFE, 3])).outputBytes = [0, 2, 3, 4, 0xFE, 0xFF] ∧
    (after .edec (loaded .v0 [0, 0xFF])).outputBytes = [0, 0xFF] := by decide

/-- Y15, Y14 and Y9. -/
theorem test_edec_errors : (after .edec (loaded .v0 [0xFE, 1, 0x41, 0xFE, 5, 0xFE])).errPos = 3 ∧
    (after .edec (loaded .v1 [0xFE, 3])).statusWord = 0x306 ∧ (after .edec (loaded .v0 [0x41, 0xFE])).errPos = 1 := by
  decide

/-! ### The bus -/

/-- B1 to B4. -/
theorem test_reset_reads :
    answer (.read 0x000 .four) State.reset = reads 0x52584301 ∧ answer (.read 0x008 .four) State.reset = reads 0 ∧
    answer (.read 0x010 .four) State.reset = reads 0x100 ∧ answer (.read 0x014 .four) State.reset = reads 0xFE ∧
    answer (.read 0x02C .four) State.reset = reads 0x10000 ∧
    answer (.read 0x030 .four) { State.reset with cfg := page } = reads 0x2000 := by decide

/-- B5 to B8 and B12 to B14. -/
theorem test_bus_errors :
    answer (.read 0x034 .four) State.reset = some .error ∧ answer (.read 0x0FFFC .four) State.reset = some .error ∧
    answer (.read 0x004 .two) State.reset = some .error ∧ answer (.read 0x006 .four) State.reset = some .error ∧
    answer (.read 0x10001 .two) State.reset = some .error ∧ answer (.read 0x10002 .four) State.reset = some .error ∧
    answer (.read 0x11000 .one) { State.reset with cfg := page } = some .error := by decide

/-- B9: IN after the write. -/
theorem test_buffer_write :
    (next (before (.write 0x10000 (.word 0x44332211)) State.reset)).inBuf.bytes 4 = [0x11, 0x22, 0x33, 0x44] := by decide

/-- B10 and B11. -/
theorem test_buffer_reads : answer (.read 0x10002 .two) (loaded .v0 [0x11, 0x22, 0x33, 0x44]) = some (.data (.half 0x4433)) ∧
    answer (.read 0x10000 .four) (loaded .v0 [0x11, 0x22, 0x33, 0x44]) = reads 0x44332211 := by decide

/-- Writing a byte again keeps the canonical form. -/
theorem test_buffer_rewrite :
    (loaded .v0 [1, 2]).inBuf.store 1 (.byte 9) = { draw := 0, cells := [(0, 1), (1, 9)] } := by decide

/-- B15 and B16: no error, and nothing changes. -/
theorem test_read_only_writes :
    answer (.write 0x20000 (.word 0x12345678)) State.reset = some .done ∧
    (next (before (.write 0x20000 (.word 0x12345678)) State.reset)).outBuf = State.reset.outBuf ∧
    answer (.write 0x01C (.word 5)) State.reset = some .done ∧
    (next (before (.write 0x01C (.word 5)) State.reset)).outLen = 0 := by decide

/-- B17 to B20. -/
theorem test_register_writes :
    (next (before (.write 0x004 (.word 0x7FFFFFFF)) State.reset)).ctrlWord = 0x3 ∧
    (next (before (.write 0x010 (.word 0xFFFFFFFF)) State.reset)).readReg .fromBase = 0x1FF ∧
    (next (before (.write 0x018 (.word 0xFFFFFFFF)) State.reset)).readReg .inLen = 0x1FFFF ∧
    (next (before (.write 0x00C (.word 0xFFFFFFFF)) State.reset)).statusWord = 0 := by decide

/-- E1 and E8: a VALUE write while busy is dropped and sets WERR. -/
theorem test_dropped_write :
    (next (before (.write 0x008 (.word 0)) State.reset)).statusWord = 0x1 ∧
    (next (before (.write 0x020 (.word 7)) (pending 0 State.reset))).value = 0 ∧
    (next (before (.write 0x020 (.word 7)) (pending 0 State.reset))).statusWord = 0x9 := by decide

/-- E13: IRQ rises with the completion; E15: clearing IRQ_EN lowers it and keeps DONE. -/
theorem test_irq : (next (before .engine (pending 0 { State.reset with irqEn := true }))).irq = true ∧
    (next (before (.write 0x004 (.word 0)) { State.reset with irqEn := true, done := true })).irq = false ∧
    (next (before (.write 0x004 (.word 0)) { State.reset with irqEn := true, done := true })).done = true := by decide

/-- A soft reset while busy ends the command without DONE (R150, R151). -/
theorem test_soft_reset :
    (next (before (.write 0x004 (.word 0x80000003)) (pending 1 { State.reset with value := 7 }))).statusWord = 0 ∧
    (next (before (.write 0x004 (.word 0x80000003)) (pending 1 { State.reset with value := 7 }))).ctrlWord = 0 ∧
    (next (before (.write 0x004 (.word 0x80000003)) (pending 1 { State.reset with value := 7 }))).value = 0 := by decide

/-- An access while reset is asserted is refused by name (U8). -/
theorem test_access_during_reset :
    step (before (.read 0x000 .four) { State.reset with phase := .inReset }) = .refused .accessDuringReset := rfl

/-! ### The host notation (R64, R65) -/

/-- The state a host instruction leaves. -/
def hostNext (h : HostState) : HostState :=
  match hostMove h with
  | .next h' => h'
  | .fault _ => h
  | .refused _ => h

/-- `lbx` zero-extends the byte it reads. -/
theorem test_host_lbx :
    (hostNext { HostState.start (loaded .v0 [1, 0x80]) [.lbx 2 0x10000 1] with regs := #v[0, 1, 0, 0, 0, 0, 0, 0] }).reg 2
      = 0x80 := by decide

/-- A bus error ends the program in a fault state. -/
theorem test_host_bus_error :
    (hostNext (HostState.start State.reset [.lw 0 0x034])).ending = some .busFault := by decide

/-- `bltu` compares unsigned. -/
theorem test_host_bltu :
    (hostNext (HostState.start State.reset [.bltu 0 (.imm 0xFFFFFFFF) 5])).pos = 5 := by decide

/-- A mnemonic stands for the write of its command word to CMD. -/
theorem test_host_command :
    (hostNext (HostState.start State.reset [hostCommand .edec])).block.pend = some 0x00000005 := by decide

/-! ### Witnesses: what the hypotheses of the obligations ask for exists -/

/-- A step that answers a next state, for the witnesses. -/
def Steps (s t : State) : Prop := step s = .next t

theorem witness_DecodeOfEncodeIsTheCommand : Instr.edec.wf = true := rfl

theorem witness_IllegalWordsAreTheOthersAndComplete :
    (∃ (s : State) (w : Word), s.phase = .ready ∧ s.busy = false ∧ s.nextInput = .write 0x008 (.word w)) ∧
    (∃ (s : State) (w : Word), s.phase = .ready ∧ s.nextInput = .engine ∧ s.pend = some w ∧ ∀ i, w ≠ encode i) ∧
    (∃ r, decode 0x00000006 = .illegal r) ∧ (∃ r, decode 0x000000FF = .illegal r) ∧
    (∃ r, decode 0x00000100 = .illegal r) :=
  ⟨⟨before (.write 0x008 (.word 6)) State.reset, 6, rfl, rfl, rfl⟩,
    ⟨before .engine (pending 6 State.reset), 6, rfl, rfl, rfl, fun i => by cases i <;> decide⟩,
    ⟨_, rfl⟩, ⟨_, rfl⟩, ⟨_, rfl⟩⟩

theorem witness_StepRunsThePendingCommand : ∃ (s : State) (w : Word) (i : Instr),
    s.phase = .ready ∧ s.nextInput = .engine ∧ s.pend = some w ∧ decode w = .command i :=
  ⟨pending 5 State.reset, 5, .edec, rfl, rfl, rfl, by decide⟩

theorem witness_PlacedWordIsTheNextCommandRun : decode 1 = .command .conv := by decide

theorem witness_IllegalCommandReportsCodeEight : ∃ (s : State) (w : Word),
    s.phase = .ready ∧ s.nextInput = .engine ∧ s.pend = some w ∧ ∀ i, w ≠ encode i :=
  ⟨pending 0x101 State.reset, 0x101, rfl, rfl, rfl, fun i => by cases i <;> decide⟩

theorem witness_MinimalDigitSequenceIsTheOneOfItsValue : Legal 2 ∧ Legal 256 ∧
    minimalDigits 256 256 = [1, 0] ∧ minimalDigits 2 3 = [1, 1] := ⟨⟨by decide, by decide⟩, ⟨by decide, by decide⟩, by decide, by decide⟩

/-- Each clause of R79 at an edge: IN_LEN 5 and 4 of IN_CAP 4, radix 1, 257, 2 and 256, the values 256 and 255 in base 2
with OUT_CAP 8. -/
theorem witness_ConvFollowsItsRule :
    (∃ s : State, s.cfg.inCap < s.inLen.toNat) ∧
    (∃ s : State, s.inLen.toNat = s.cfg.inCap ∧ ¬ Legal s.fromBase.toNat) ∧
    (∃ s : State, s.inLen.toNat ≤ s.cfg.inCap ∧ Legal s.fromBase.toNat ∧ ¬ Legal s.toBase.toNat) ∧
    (∃ s : State, s.inLen.toNat ≤ s.cfg.inCap ∧ Legal s.fromBase.toNat ∧ Legal s.toBase.toNat ∧
      s.fromBase.toNat ≤ (s.inByte 1).toNat ∧ 1 < s.inLen.toNat ∧ ∀ j < 1, (s.inByte j).toNat < s.fromBase.toNat) ∧
    (∃ s : State, s.inLen.toNat ≤ s.cfg.inCap ∧ Legal s.fromBase.toNat ∧ Legal s.toBase.toNat ∧
      (∀ i < s.inLen.toNat, (s.inByte i).toNat < s.fromBase.toNat) ∧
      s.toBase.toNat ^ s.cfg.outCap = positional s.fromBase.toNat (input s)) ∧
    (∃ s : State, s.inLen.toNat ≤ s.cfg.inCap ∧ Legal s.fromBase.toNat ∧ Legal s.toBase.toNat ∧
      (∀ i < s.inLen.toNat, (s.inByte i).toNat < s.fromBase.toNat) ∧
      positional s.fromBase.toNat (input s) + 1 = s.toBase.toNat ^ s.cfg.outCap) := by
  unfold Legal
  exact ⟨⟨{ based 256 2 [] with cfg := tiny, inLen := 5 }, by decide⟩,
    ⟨{ based 1 2 [0, 0, 0, 0] with cfg := tiny }, by decide⟩, ⟨{ based 2 257 [0] with cfg := tiny }, by decide⟩,
    ⟨{ based 2 256 [1, 2] with cfg := tiny }, by decide⟩, ⟨{ based 256 2 [1, 0] with cfg := tiny }, by decide⟩,
    ⟨{ based 256 2 [255] with cfg := tiny }, by decide⟩⟩

/-- C6 after C5 with a leading zero. -/
theorem witness_ConvThereAndBackDropsLeadingZeros : ∃ s t s' : State, exec .conv s = .next t ∧ t.errCode = .ok ∧
    s'.cfg = s.cfg ∧ s'.fromBase = s.toBase ∧ s'.toBase = s.fromBase ∧ s'.inLen.toNat = t.outLen.toNat ∧
    s'.inLen.toNat ≤ s.cfg.inCap ∧ input s' = output t :=
  ⟨based 256 10 [0, 1, 0], _, based 10 256 [2, 5, 6], exec_after _ _, by decide, rfl, rfl, rfl, by decide, by decide,
    by decide⟩

/-- C13, at the bound. -/
theorem witness_ConvToSixteenOrMoreNeverOverflows : ∃ s t : State, exec .conv s = .next t ∧ 16 ≤ s.toBase.toNat ∧
    t.errCode = .ok ∧ t.outLen.toNat = 2 * s.inLen.toNat :=
  ⟨based 256 16 [0xFF, 0xFF], _, exec_after _ _, by decide, by decide, by decide⟩

/-- S11 and S12. -/
theorem witness_SencFollowsItsRule : (∃ s : State, s.value.toNat + 1 = radixOf s.variant ^ 4) ∧
    (∃ s : State, radixOf s.variant ^ 4 = s.value.toNat) :=
  ⟨⟨valued .v0 4162314255, by decide⟩, ⟨valued .v1 4228250625, by decide⟩⟩

/-- D10, D5 and D7: the clauses at the bytes 0, R + 1 and R. -/
theorem witness_SdecFollowsItsRule :
    (∃ s : State, lane s.safe 3 = 0 ∧ ∀ j < 3, lane s.safe j ≠ 0) ∧
    (∃ s : State, (∀ k < 4, lane s.safe k ≠ 0) ∧ radixOf s.variant ≤ lane s.safe 3 - 1 ∧
      ∀ j < 3, lane s.safe j - 1 < radixOf s.variant) ∧
    (∃ s : State, (∀ k < 4, lane s.safe k ≠ 0) ∧ ∀ k < 4, lane s.safe k - 1 < radixOf s.variant) :=
  ⟨⟨safed .v0 0x00010101, by decide⟩, ⟨safed .v0 0xFF010101, by decide⟩, ⟨safed .v1 0xFFFFFFFF, by decide⟩⟩

theorem witness_SencThenSdecReturnsTheValue : ∃ s t s' : State, s.value.toNat < radixOf s.variant ^ 4 ∧
    exec .senc s = .next t ∧ s'.safe = t.safe ∧ s'.variant = s.variant :=
  ⟨valued .v0 4162314255, _, safed .v0 0xFEFEFEFE, by decide, exec_after _ _, by decide, rfl⟩

theorem witness_SdecThenSencReturnsTheSafeLength : ∃ s t s' : State,
    (∀ k < 4, 1 ≤ lane s.safe k ∧ lane s.safe k ≤ radixOf s.variant) ∧ exec .sdec s = .next t ∧
    s'.value = t.value ∧ s'.variant = s.variant :=
  ⟨safed .v1 0xFFFFFFFF, _, valued .v1 4228250624, by decide, exec_after _ _, by decide, rfl⟩

theorem witness_SencWritesNoForbiddenByte : ∃ s t : State, exec .senc s = .next t ∧ t.errCode = .ok ∧ s.variant = .v0 :=
  ⟨valued .v0 4162314255, _, exec_after _ _, by decide, rfl⟩

theorem witness_SencKeepsTheOrderOfValues : ∃ s t s' t' : State, s'.variant = s.variant ∧
    s.value.toNat < s'.value.toNat ∧ s'.value.toNat < radixOf s.variant ^ 4 ∧ exec .senc s = .next t ∧
    exec .senc s' = .next t' :=
  ⟨valued .v0 253, _, valued .v0 254, _, rfl, by decide, by decide, exec_after _ _, exec_after _ _⟩

/-- The two clauses where they meet: R^4 - 1 (0xF817E00F) and R^4 (0xF817E010) in V0, and the same in V1 (0xFC05FC00,
0xFC05FC01). -/
theorem witness_SencAgreesWithConv : (∃ s c : State, c.inLen = 4 ∧ c.fromBase = 256 ∧
      c.toBase.toNat = radixOf s.variant ∧ (∀ k < 4, c.inByte k = s.value.extractLsb' (24 - 8 * k) 8) ∧
      s.variant = .v0 ∧ s.value.toNat + 1 = radixOf s.variant ^ 4) ∧
    (∃ s c : State, c.inLen = 4 ∧ c.fromBase = 256 ∧ c.toBase.toNat = radixOf s.variant ∧
      (∀ k < 4, c.inByte k = s.value.extractLsb' (24 - 8 * k) 8) ∧
      s.variant = .v0 ∧ s.value.toNat = radixOf s.variant ^ 4) ∧
    (∃ s c : State, c.inLen = 4 ∧ c.fromBase = 256 ∧ c.toBase.toNat = radixOf s.variant ∧
      (∀ k < 4, c.inByte k = s.value.extractLsb' (24 - 8 * k) 8) ∧
      s.variant = .v1 ∧ s.value.toNat + 1 = radixOf s.variant ^ 4) ∧
    (∃ s c : State, c.inLen = 4 ∧ c.fromBase = 256 ∧ c.toBase.toNat = radixOf s.variant ∧
      (∀ k < 4, c.inByte k = s.value.extractLsb' (24 - 8 * k) 8) ∧
      s.variant = .v1 ∧ s.value.toNat = radixOf s.variant ^ 4) :=
  ⟨⟨valued .v0 0xF817E00F, based 256 254 [0xF8, 0x17, 0xE0, 0x0F], by decide⟩,
    ⟨valued .v0 0xF817E010, based 256 254 [0xF8, 0x17, 0xE0, 0x10], by decide⟩,
    ⟨valued .v1 0xFC05FC00, based 256 255 [0xFC, 0x05, 0xFC, 0x00], by decide⟩,
    ⟨valued .v1 0xFC05FC01, based 256 255 [0xFC, 0x05, 0xFC, 0x01], by decide⟩⟩

theorem witness_CarrierLengthsAreEncodable : ∃ s : State, s.value.toNat = 8294400 := ⟨valued .v1 8294400, by decide⟩

/-- IN_LEN one above IN_CAP, and equal to it. -/
theorem witness_EencFollowsItsRule : (∃ s : State, s.cfg.inCap + 1 = s.inLen.toNat) ∧
    (∃ s : State, s.inLen.toNat = s.cfg.inCap) :=
  ⟨⟨{ State.reset with inLen := 65537 }, by decide⟩, ⟨{ State.reset with inLen := 65536 }, by decide⟩⟩

/-- Y4 decodes; Y14 and Y9 meet a bad pair. -/
theorem witness_EdecFollowsItsRule : (∃ s : State, s.cfg.inCap + 1 = s.inLen.toNat) ∧
    (∃ (s : State) (ps : List (List Byte × Byte)), s.inLen.toNat ≤ s.cfg.inCap ∧ EscapeUnits s.variant ps (input s)) ∧
    (∃ (s : State) (ps : List (List Byte × Byte)) (y tail : List Byte), s.inLen.toNat ≤ s.cfg.inCap ∧
      EscapeUnits s.variant ps y ∧ input s = y ++ tail ∧ BadPair s.variant tail) ∧
    BadPair .v1 [0xFE, 3] := by
  refine ⟨⟨{ State.reset with inLen := 65537 }, by decide⟩,
    ⟨loaded .v0 [0xFE, 3], [([0xFE, 3], 0xFF)], by decide, ?_, by decide⟩,
    ⟨loaded .v0 [0x41, 0xFE], [([0x41], 0x41)], [0x41], [0xFE], by decide, ⟨?_, by decide⟩, by decide, .inl rfl⟩,
    .inr ⟨3, [], rfl, ?_⟩⟩
  · simp [IsEscapeUnit, loaded]
  · simp [IsEscapeUnit]
  · intro b
    simp [IsEscapeUnit]

theorem witness_EencThenEdecReturnsThePayload : ∃ s t s' : State, s.inLen.toNat ≤ s.cfg.inCap ∧ exec .eenc s = .next t ∧
    s'.variant = s.variant ∧ s'.inLen.toNat = t.outLen.toNat ∧ s'.inLen.toNat ≤ s'.cfg.inCap ∧ input s' = output t :=
  ⟨loaded .v0 [0, 2, 0xFF], _, loaded .v0 [0xFE, 1, 2, 0xFE, 3], by decide, exec_after _ _, rfl, by decide, by decide,
    by decide⟩

theorem witness_EencLengthCountsTheEscapedBytes : ∃ s t : State, s.inLen.toNat ≤ s.cfg.inCap ∧ exec .eenc s = .next t :=
  ⟨loaded .v1 [0, 0xFF], _, by decide, exec_after _ _⟩

theorem witness_EencOutputHoldsNoReservedLiteral : ∃ s t : State, s.inLen.toNat ≤ s.cfg.inCap ∧ exec .eenc s = .next t ∧
    0 < t.outLen.toNat ∧ t.outByte 0 = 0xFE :=
  ⟨loaded .v0 [0, 0xFF], _, by decide, exec_after _ _, by decide, by decide⟩

theorem witness_EencOfAConcatenation : ∃ s t sa ta sb tb : State, s.inLen.toNat ≤ s.cfg.inCap ∧
    sa.inLen.toNat ≤ sa.cfg.inCap ∧ sb.inLen.toNat ≤ sb.cfg.inCap ∧ sa.variant = s.variant ∧ sb.variant = s.variant ∧
    input s = input sa ++ input sb ∧ exec .eenc s = .next t ∧ exec .eenc sa = .next ta ∧ exec .eenc sb = .next tb :=
  ⟨loaded .v0 [0, 1, 0xFE], _, loaded .v0 [0], _, loaded .v0 [1, 0xFE], _, by decide, by decide, by decide, rfl, rfl,
    by decide, exec_after _ _, exec_after _ _, exec_after _ _⟩

/-- Y17 and Y18. -/
theorem witness_EdecInPiecesCutBetweenPairs :
    (∃ s t sa sb : State, s.inLen.toNat ≤ s.cfg.inCap ∧ sa.inLen.toNat ≤ sa.cfg.inCap ∧ sb.inLen.toNat ≤ sb.cfg.inCap ∧
      sa.variant = s.variant ∧ sb.variant = s.variant ∧ exec .edec s = .next t ∧ t.errCode = .ok ∧
      input s = input sa ++ input sb ∧ (input sa).getLast? ≠ some 0xFE) ∧
    (∃ s t sa sb : State, s.inLen.toNat ≤ s.cfg.inCap ∧ sa.inLen.toNat ≤ sa.cfg.inCap ∧ sb.inLen.toNat ≤ sb.cfg.inCap ∧
      sa.variant = s.variant ∧ sb.variant = s.variant ∧ exec .edec s = .next t ∧ t.errCode = .ok ∧
      input s = input sa ++ input sb ∧ (input sa).getLast? = some 0xFE) :=
  ⟨⟨loaded .v0 [0xFE, 1, 2, 0xFE, 3], _, loaded .v0 [0xFE, 1, 2], loaded .v0 [0xFE, 3], by decide, by decide, by decide,
      rfl, rfl, exec_after _ _, by decide, by decide, by decide⟩,
    ⟨loaded .v0 [0xFE, 1, 2], _, loaded .v0 [0xFE], loaded .v0 [1, 2], by decide, by decide, by decide, rfl, rfl,
      exec_after _ _, by decide, by decide, by decide⟩⟩

/-- For each command, two states whose operands of that command agree and whose other operands do not. -/
theorem witness_ResultDependsOnlyOnTheOperands :
    (∃ s s' : State, SameOperands s s' .nop ∧ s.variant ≠ s'.variant ∧ s.inLen ≠ s'.inLen) ∧
    (∃ s s' : State, SameOperands s s' .conv ∧ s.variant ≠ s'.variant ∧ s.value ≠ s'.value ∧ s.safe ≠ s'.safe ∧
      s.outLen ≠ s'.outLen) ∧
    (∃ s s' : State, SameOperands s s' .senc ∧ s.inLen ≠ s'.inLen ∧ s.fromBase ≠ s'.fromBase ∧ s.safe ≠ s'.safe) ∧
    (∃ s s' : State, SameOperands s s' .sdec ∧ s.inLen ≠ s'.inLen ∧ s.toBase ≠ s'.toBase ∧ s.value ≠ s'.value) ∧
    (∃ s s' : State, SameOperands s s' .eenc ∧ s.fromBase ≠ s'.fromBase ∧ s.toBase ≠ s'.toBase ∧ s.safe ≠ s'.safe) ∧
    (∃ s s' : State, SameOperands s s' .edec ∧ s.fromBase ≠ s'.fromBase ∧ s.toBase ≠ s'.toBase ∧ s.value ≠ s'.value) :=
  ⟨⟨State.reset, loaded .v1 [1], trivial, by decide⟩,
    ⟨based 256 10 [1, 0], { based 256 10 [1, 0] with variant := .v1, value := 7, safe := 9, outLen := 3 },
      ⟨⟨rfl, rfl, fun _ _ => rfl⟩, rfl, rfl⟩, by decide⟩,
    ⟨valued .v0 11, { based 2 10 [1] with value := 11, safe := 9 }, ⟨rfl, rfl⟩, by decide⟩,
    ⟨safed .v0 0x0C010101, { based 2 10 [1] with safe := 0x0C010101, value := 7 }, ⟨rfl, rfl⟩, by decide⟩,
    ⟨loaded .v0 [0, 1], { based 2 10 [0, 1] with safe := 9 }, ⟨⟨rfl, rfl, fun _ _ => rfl⟩, rfl⟩, by decide⟩,
    ⟨loaded .v0 [0xFE, 1], { based 2 10 [0xFE, 1] with value := 7 }, ⟨⟨rfl, rfl, fun _ _ => rfl⟩, rfl⟩, by decide⟩⟩

/-- An access that is answered and one that is not, at the edges of the register window and of IN. -/
theorem witness_BusErrorExactlyWhereTheRulesSay :
    (∃ s : State, s.phase = .ready ∧ s.nextInput = .read 0x030 .four) ∧
    (∃ s : State, s.phase = .ready ∧ s.nextInput = .write 0x034 (.word 0)) ∧
    AccessOk tiny 0x030 4 ∧ ¬ AccessOk tiny 0x034 4 ∧ AccessOk tiny 0x10003 1 ∧ ¬ AccessOk tiny 0x10004 1 ∧
    AccessOk tiny 0x20007 1 ∧ ¬ AccessOk tiny 0x20008 1 := by
  unfold AccessOk
  exact ⟨⟨before (.read 0x030 .four) State.reset, rfl, rfl⟩, ⟨before (.write 0x034 (.word 0)) State.reset, rfl, rfl⟩,
    by decide⟩

theorem witness_StepRefusesOnlyAccessesInResetOrWithoutPower :
    (∃ s : State, ∃ r, step s = .refused r) ∧ ∃ s : State, ¬ ∃ r, step s = .refused r :=
  ⟨⟨before (.read 0x000 .four) { State.reset with phase := .powerLost }, .accessAfterPowerLoss, rfl⟩,
    ⟨State.reset, fun h => by obtain ⟨r, hr⟩ := h; cases hr⟩⟩

theorem witness_ReadsHaveNoSideEffect : (∃ s : State, s.phase = .ready ∧ s.nextInput = .read 0x01C .four ∧ s.busy = false) ∧
    ∃ s : State, s.phase = .ready ∧ s.nextInput = .read 0x01C .four ∧ s.busy = true :=
  ⟨⟨before (.read 0x01C .four) State.reset, rfl, rfl, rfl⟩, ⟨before (.read 0x01C .four) (pending 0 State.reset), rfl, rfl, rfl⟩⟩

theorem witness_StatusReadsItsFlagsInPlace : ∃ s : State, s.phase = .ready ∧ s.nextInput = .read 0x00C .four :=
  ⟨before (.read 0x00C .four) State.reset, rfl, rfl⟩

theorem witness_RegisterReadsReturnTheRegisters : ∃ s : State, s.phase = .ready ∧ s.busy = false ∧
    s.nextInput = .read 0x000 .four := ⟨before (.read 0x000 .four) State.reset, rfl, rfl, rfl⟩

theorem witness_RegisterWritesReachTheirFieldOnly : ∀ off ∈ [(0x004 : Offset), 0x010, 0x014, 0x018, 0x020, 0x024],
    ∃ (s : State) (w : Word), s.phase = .ready ∧ s.busy = false ∧ s.nextInput = .write off (.word w) ∧
      w.getLsbD 31 = false :=
  fun off _ => ⟨before (.write off (.word 0x7FFFFFFF)) State.reset, 0x7FFFFFFF, rfl, rfl, rfl, by decide⟩

theorem witness_StatusWriteClearsDoneAndWerr : ∃ (s : State) (w : Word), s.phase = .ready ∧
    s.nextInput = .write 0x00C (.word w) := ⟨before (.write 0x00C (.word 0xA)) State.reset, 0xA, rfl, rfl⟩

/-- Both windows, at their last bytes, in each width. -/
theorem witness_BufferReadsAreLittleEndian :
    (∃ s : State, s.phase = .ready ∧ s.nextInput = .read 0x10003 .one ∧ 3 < s.cfg.inCap) ∧
    (∃ s : State, s.phase = .ready ∧ s.nextInput = .read 0x20006 .two ∧ 6 < s.cfg.outCap ∧ s.busy = false) ∧
    (∃ s : State, s.phase = .ready ∧ s.nextInput = .read 0x20004 .four ∧ 4 < s.cfg.outCap ∧ s.busy = false) :=
  ⟨⟨before (.read 0x10003 .one) { State.reset with cfg := tiny }, rfl, rfl, by decide⟩,
    ⟨before (.read 0x20006 .two) { State.reset with cfg := tiny }, rfl, rfl, by decide, rfl⟩,
    ⟨before (.read 0x20004 .four) { State.reset with cfg := tiny }, rfl, rfl, by decide, rfl⟩⟩

theorem witness_InWindowWritesStoreLittleEndian : ∀ d ∈ [BusData.byte 1, .half 0x0201, .word 0x04030201],
    ∃ (s : State) (off : Offset), s.phase = .ready ∧ s.busy = false ∧ off.toNat = 0x10000 + 0 ∧ 0 < s.cfg.inCap ∧
      0 % d.size.bytes = 0 ∧ s.nextInput = .write off d :=
  fun d _ => ⟨before (.write 0x10000 d) { State.reset with cfg := tiny }, 0x10000, rfl, rfl, by decide,
    (by decide : 0 < tiny.inCap), Nat.zero_mod _, rfl⟩

theorem witness_CmdWriteIssuesTheCommand : ∃ (s : State) (w : Word), s.phase = .ready ∧ s.busy = false ∧
    s.nextInput = .write 0x008 (.word w) ∧ s.irq = true :=
  ⟨before (.write 0x008 (.word 1)) { State.reset with irqEn := true, done := true }, 1, rfl, rfl, rfl, rfl⟩

theorem witness_WritesWhileBusyAreDropped :
    (∀ off ∈ [(0x008 : Offset), 0x010, 0x014, 0x018, 0x020, 0x024, 0x00C, 0x000, 0x01C, 0x028, 0x02C, 0x030],
      ∃ (s : State) (w : Word),
      s.phase = .ready ∧ s.busy = true ∧ s.nextInput = .write off (.word w)) ∧
    (∃ (s : State) (w : Word), s.phase = .ready ∧ s.busy = true ∧ w.getLsbD 31 = false ∧
      s.nextInput = .write 0x004 (.word w)) ∧
    (∃ (s : State) (off : Offset) (d : BusData), s.phase = .ready ∧ s.busy = true ∧ 0x10000 ≤ off.toNat ∧
      off.toNat + 1 = 0x10000 + s.cfg.inCap ∧ off.toNat % d.size.bytes = 0 ∧ s.nextInput = .write off d) ∧
    (∃ (s : State) (w : Word), s.phase = .ready ∧ s.busy = true ∧ w.getLsbD 31 = true ∧
      s.nextInput = .write 0x004 (.word w)) ∧
    (∃ (s : State) (off : Offset) (d : BusData), s.phase = .ready ∧ s.busy = true ∧ 0x20000 ≤ off.toNat ∧
      off.toNat + 1 = 0x20000 + s.cfg.outCap ∧ off.toNat % d.size.bytes = 0 ∧ s.nextInput = .write off d) :=
  ⟨fun off _ => ⟨before (.write off (.word 7)) (pending 0 State.reset), 7, rfl, rfl, rfl⟩,
    ⟨before (.write 0x004 (.word 3)) (pending 0 State.reset), 3, rfl, rfl, by decide, rfl⟩,
    ⟨before (.write 0x10003 (.byte 7)) (pending 0 { State.reset with cfg := tiny }), 0x10003, .byte 7, rfl, rfl, by decide,
      by decide, by decide, rfl⟩,
    ⟨before (.write 0x004 (.word 0x80000000)) (pending 0 State.reset), 0x80000000, rfl, rfl, by decide, rfl⟩,
    ⟨before (.write 0x20007 (.byte 7)) (pending 0 { State.reset with cfg := tiny }), 0x20007, .byte 7, rfl, rfl, by decide,
      by decide, by decide, rfl⟩⟩

theorem witness_ReadOnlyWritesAreIgnored :
    (∀ off ∈ [(0x000 : Offset), 0x01C, 0x028, 0x02C, 0x030], ∃ (s : State) (w : Word), s.phase = .ready ∧
      s.nextInput = .write off (.word w)) ∧
    (∃ (s : State) (off : Offset) (d : BusData), s.phase = .ready ∧ 0x20000 ≤ off.toNat ∧
      off.toNat + 1 = 0x20000 + s.cfg.outCap ∧ off.toNat % d.size.bytes = 0 ∧ s.nextInput = .write off d) :=
  ⟨fun off _ => ⟨before (.write off (.word 7)) State.reset, 7, rfl, rfl⟩,
    ⟨before (.write 0x20007 (.byte 7)) { State.reset with cfg := tiny }, 0x20007, .byte 7, rfl, by decide, by decide,
      by decide, rfl⟩⟩

theorem witness_ReadsWhileBusyReturnADraw :
    (∀ off ∈ [(0x01C : Offset), 0x020, 0x024, 0x028, 0x000, 0x004, 0x008, 0x00C, 0x010, 0x014, 0x018, 0x02C, 0x030],
      ∃ s : State, s.phase = .ready ∧ s.busy = true ∧ s.nextInput = .read off .four) ∧
    (∃ (s : State) (off : Offset), s.phase = .ready ∧ s.busy = true ∧ 0x20000 ≤ off.toNat ∧
      off.toNat + 1 = 0x20000 + s.cfg.outCap ∧ s.nextInput = .read off .one) ∧
    (∃ (s : State) (off : Offset), s.phase = .ready ∧ s.busy = true ∧ 0x10000 ≤ off.toNat ∧
      off.toNat + 1 = 0x10000 + s.cfg.inCap ∧ s.nextInput = .read off .one) :=
  ⟨fun off _ => ⟨before (.read off .four) (pending 0 State.reset), rfl, rfl, rfl⟩,
    ⟨before (.read 0x20007 .one) (pending 0 { State.reset with cfg := tiny }), 0x20007, rfl, rfl, by decide, by decide, rfl⟩,
    ⟨before (.read 0x10003 .one) (pending 0 { State.reset with cfg := tiny }), 0x10003, rfl, rfl, by decide, by decide, rfl⟩⟩

theorem witness_SoftResetResetsEverything : ∃ (s : State) (w : Word), s.phase = .ready ∧ w.getLsbD 31 = true ∧
    s.nextInput = .write 0x004 (.word w) ∧ s.busy = true ∧ s.werr = true :=
  ⟨before (.write 0x004 (.word 0xFFFFFFFF)) (pending 1 { State.reset with werr := true }), 0xFFFFFFFF, rfl, by decide, rfl, rfl, rfl⟩

theorem witness_HardResetResetsEverything : (∃ s : State, s.nextInput = .assertReset) ∧
    ∃ s : State, s.phase = .inReset ∧ s.nextInput = .releaseReset :=
  ⟨⟨before .assertReset State.reset, rfl⟩, ⟨before .releaseReset { State.reset with phase := .inReset }, rfl, rfl⟩⟩

/-- The reset state, with any reset and power condition and any events to come, meets the invariant. -/
theorem reset_inv (ph : Phase) (l : List Input) : State.Inv { State.reset with phase := ph, inputs := l } where
  buffersWf := ⟨rfl, rfl, rfl, rfl⟩
  drawsFresh := ⟨(by decide : 0 < 2), (by decide : 1 < 2), (by decide : 0 ≠ 1)⟩
  busyClear := fun _ h => by cases h
  errPosBounded := fun _ => ⟨fun _ => rfl, (by decide : (0 : BitVec 17).toNat < Config.default.inCap)⟩
  outHolds := fun _ => ⟨rfl, Nat.zero_le _⟩
  heldInReset := fun _ => ⟨rfl, rfl, rfl, rfl, rfl, rfl, rfl, rfl, rfl, rfl, rfl, rfl, rfl, rfl, rfl⟩

theorem witness_ResetHoldsTheBlock :
    (∃ s t : State, s.Inv ∧ s.phase = .inReset ∧ Steps s t ∧ s.nextInput = .engine) ∧
    ∃ s t : State, s.Inv ∧ s.phase = .inReset ∧ Steps s t ∧ s.nextInput = .releaseReset :=
  ⟨⟨_, _, reset_inv .inReset [.engine], rfl, rfl, rfl⟩, ⟨_, _, reset_inv .inReset [.releaseReset], rfl, rfl, rfl⟩⟩

/-- Each of the ways a command ends. -/
theorem witness_OnlyCompletionOrResetEndsACommand : ∀ e ∈ [Input.engine, .assertReset, .write 0x004 (.word 0x80000000), .powerLoss],
    ∃ s t : State, s.phase = .ready ∧ s.busy = true ∧ Steps s t ∧ s.nextInput = e ∧ (e ≠ .powerLoss → t.busy = false) := by
  intro e he
  simp only [List.mem_cons, List.not_mem_nil, or_false] at he
  rcases he with rfl | rfl | rfl | rfl
  · exact ⟨before .engine (pending 0 State.reset), _, rfl, rfl, rfl, rfl, fun _ => rfl⟩
  · exact ⟨before .assertReset (pending 0 State.reset), _, rfl, rfl, rfl, rfl, fun _ => rfl⟩
  · exact ⟨before (.write 0x004 (.word 0x80000000)) (pending 0 State.reset), _, rfl, rfl, rfl, rfl, fun _ => rfl⟩
  · exact ⟨before .powerLoss (pending 0 State.reset), _, rfl, rfl, rfl, rfl, fun h => absurd rfl h⟩

theorem witness_OperandsAreFrozenWhileBusy : ∃ s t : State, s.phase = .ready ∧ s.busy = true ∧ Steps s t ∧ t.busy = true ∧
    s.nextInput = .write 0x020 (.word 7) :=
  ⟨before (.write 0x020 (.word 7)) (pending 2 State.reset), _, rfl, rfl, rfl, rfl, rfl⟩

theorem witness_OnlyACmdWriteStartsACommand : ∃ s t : State, s.busy = false ∧ Steps s t ∧ t.busy = true ∧
    s.nextInput ≠ .powerLoss := ⟨before (.write 0x008 (.word 2)) State.reset, _, rfl, rfl, rfl, by decide⟩

theorem witness_IrqRisesOnlyByCompletionOrEnable :
    (∃ s t : State, Steps s t ∧ s.irq = false ∧ t.irq = true ∧ s.nextInput = .engine) ∧
    ∃ s t : State, Steps s t ∧ s.irq = false ∧ t.irq = true ∧ s.nextInput = .write 0x004 (.word 2) :=
  ⟨⟨before .engine (pending 0 { State.reset with irqEn := true }), _, rfl, rfl, rfl, rfl⟩,
    ⟨before (.write 0x004 (.word 2)) { State.reset with done := true }, _, rfl, rfl, rfl, rfl⟩⟩

theorem witness_WerrIsStickyUntilCleared :
    (∃ s t : State, Steps s t ∧ s.nextInput ≠ .powerLoss ∧ s.werr = false ∧ t.werr = true) ∧
    ∃ s t : State, Steps s t ∧ s.nextInput ≠ .powerLoss ∧ s.werr = true ∧ t.werr = false :=
  ⟨⟨before (.write 0x008 (.word 0)) (pending 0 State.reset), _, rfl, by decide, rfl, rfl⟩,
    ⟨before (.write 0x00C (.word 8)) { State.reset with werr := true }, _, rfl, by decide, rfl, rfl⟩⟩

/-- Byte 4 beside a write of bytes 0 to 3. -/
theorem witness_InByteKeepsItsValueUntilWritten : ∃ s t : State, Steps s t ∧
    s.nextInput = .write 0x10000 (.word 7) ∧ (0x10000 : Offset).toNat + (BusData.word 7).size.bytes ≤ 0x10000 + 4 :=
  ⟨before (.write 0x10000 (.word 7)) State.reset, _, rfl, rfl, by decide⟩

theorem witness_OutputSurvivesEverythingElse : ∃ s t : State, Steps s t ∧ s.nextInput = .engine ∧
    s.pend = some 2 ∧ (2 : Word) ≠ encode .conv ∧ (2 : Word) ≠ encode .eenc ∧ (2 : Word) ≠ encode .edec :=
  ⟨before .engine (pending 2 State.reset), _, rfl, rfl, rfl, by decide⟩

theorem witness_ParametersNeverChange : ∃ s t : State, Steps s t ∧ s.cfg = tiny :=
  ⟨before .assertReset { State.reset with cfg := tiny }, _, rfl, rfl⟩

theorem witness_PowerLossWaitsForAHardReset : (∃ s : State, s.nextInput = .powerLoss) ∧
    ∃ s t : State, s.phase = .powerLost ∧ Steps s t ∧ t.phase ≠ .powerLost :=
  ⟨⟨before .powerLoss State.reset, rfl⟩,
    ⟨before .assertReset { State.reset with phase := .powerLost }, _, rfl, rfl, by decide⟩⟩

theorem witness_StepKeepsTheInvariant : ∃ s t : State, s.Inv ∧ Steps s t :=
  ⟨_, _, reset_inv .ready [.write 0x008 (.word 1)], rfl⟩

/-- A CMD write and then the engine: the run of the second clause. -/
theorem witness_EveryIssuedCommandCompletes :
    (∃ s : State, s.phase = .ready ∧ s.busy = true ∧ s.nextInput = .engine) ∧
    ∃ s t : State, s.Inv ∧ s.phase ≠ .powerLost ∧ Input.powerLoss ∉ s.inputs ∧
      Sys2Proof.core.run (s.inputs.length + 1) s = .next t :=
  ⟨⟨pending 0 State.reset, rfl, rfl, rfl⟩,
    ⟨_, _, reset_inv .ready [.write 0x008 (.word 1)], by decide, by decide, rfl⟩⟩

end Sys2Proof.Tests
end

/-! SUPPORT. The proofs of the scope statements (00_scope.md R3, R4): no step changes the parameters, and a command's
result depends only on its operands. -/

namespace Sys2Proof.Machine

/-! ### The parameters (R4) -/

theorem State.busRead_cfg (s : State) (off : Offset) (size : AccessSize) : (s.busRead off size).cfg = s.cfg := by
  obtain ⟨r, d, h, -⟩ := s.busRead_cases off size
  rw [h]

theorem WriteEffect.cfg_eq {s t : State} {off : Offset} {d : BusData} (h : WriteEffect s off d t) : t.cfg = s.cfg := by
  cases h <;> rfl

theorem State.busWrite_cfg (s : State) (off : Offset) (d : BusData) : (s.busWrite off d).cfg = s.cfg := by
  rcases s.busWrite_cases off d with ⟨-, h⟩ | ⟨u, hu, h⟩
  · rw [h, State.answer_cfg]
  · rw [h, State.answer_cfg, hu.cfg_eq]

theorem EndsOut.cfg_eq {s t : State} {codes : List ErrCode} (h : EndsOut s codes t) : t.cfg = s.cfg := by
  rcases h with ⟨e, p, -, -, -, rfl⟩ | ⟨o, -, rfl⟩
  · exact s.failOut_cfg e p
  · exact s.succeedOut_cfg o

theorem exec_cfg {i : Instr} {s t : State} (h : exec i s = .next t) : t.cfg = s.cfg := by
  obtain ⟨u, hu, hc⟩ := exec_cases i s
  obtain rfl : u = t := Host.Outcome.next.inj (hu.symm.trans h)
  rcases hc with ⟨e, p, -, -, rfl⟩ | ⟨-, w, rfl⟩ | ⟨-, w, rfl⟩ | ⟨-, codes, he⟩
  · rfl
  · rfl
  · rfl
  · exact he.cfg_eq

/-- No event of the schedule changes the parameters (R4, R32, R33). -/
theorem step_cfg {s t : State} (h : step s = .next t) : t.cfg = s.cfg := by
  cases step_cases h with
  | read off size => exact s.turn.busRead_cfg off size
  | write off d => exact s.turn.busWrite_cfg off d
  | idle => exact s.turn_cfg
  | command w i he hp hw hd t ht => exact (exec_cfg ht).trans s.turn_cfg
  | illegal => rfl
  | assertReset => exact s.turn.assertReset_cfg
  | releaseReset => exact s.turn.releaseReset_cfg
  | powerLoss => exact s.turn.losePower_cfg

/-! ### The bytes of a result -/

/-- The bytes of a result are the same whatever draw fills the buffer beyond it (R35). -/
theorem Memory.bytes_holding_congr (d d' : Nat) {o : List Byte} {n : Nat} (h : n ≤ o.length) :
    (Memory.holding d o).bytes n = (Memory.holding d' o).bytes n := by
  refine List.map_congr_left fun i hi => ?_
  have hlt : i < o.length := by
    have := List.mem_range.mp hi
    omega
  simp [Memory.read_holding, hlt]

end Sys2Proof.Machine

namespace Sys2Proof.Claims

open Sys2Proof.Machine

/-! ### Operands that agree (R61) -/

theorem SameInput.badLength_eq {s s' : State} (h : SameInput s s') : s.badLength = s'.badLength := by
  obtain ⟨hcfg, hlen, -⟩ := h
  rw [State.badLength, State.badLength, hcfg, hlen]

theorem SameInput.inputBytes_eq {s s' : State} (h : SameInput s s') : s.inputBytes = s'.inputBytes := by
  obtain ⟨-, hlen, hbytes⟩ := h
  rw [State.inputBytes, State.inputBytes, ← hlen]
  exact List.map_congr_left fun i hi => hbytes i (List.mem_range.mp hi)

/-! ### Results that agree (R61, R68) -/

/-- The results of CONV, EENC and EDEC after the same failure. -/
theorem sameResults_failOut {i : Instr} (hi : i = .conv ∨ i = .eenc ∨ i = .edec) (s s' : State) (e : ErrCode) (p : Nat) :
    SameResults (s.failOut e p) (s'.failOut e p) i := by
  rcases hi with rfl | rfl | rfl <;> exact ⟨rfl, rfl, rfl, rfl⟩

/-- The results of CONV, EENC and EDEC after the same output: the drawn bytes lie beyond OUT_LEN (R35). -/
theorem sameResults_succeedOut {i : Instr} (hi : i = .conv ∨ i = .eenc ∨ i = .edec) (s s' : State) (o : List Byte) :
    SameResults (s.succeedOut o) (s'.succeedOut o) i := by
  have hout : output (s.succeedOut o) = output (s'.succeedOut o) :=
    Memory.bytes_holding_congr s.draws s'.draws (by simpa using Nat.mod_le _ _)
  rcases hi with rfl | rfl | rfl <;> exact ⟨rfl, rfl, rfl, hout⟩

/-! ### Each command's results from its operands -/

theorem execConv_sameResults {s s' : State} (h : SameInput s s') (hfrom : s.fromBase = s'.fromBase)
    (hto : s.toBase = s'.toBase) :
    ∃ t t', execConv s = .next t ∧ execConv s' = .next t' ∧ SameResults t t' .conv := by
  have ⟨hcfg, _, _⟩ := h
  refine ⟨_, _, rfl, rfl, ?_⟩
  rw [h.badLength_eq, h.inputBytes_eq, hfrom, hto, hcfg]
  split
  · exact sameResults_failOut (.inl rfl) s s' _ _
  split
  · exact sameResults_failOut (.inl rfl) s s' _ _
  split
  · exact sameResults_failOut (.inl rfl) s s' _ _
  cases firstIllegalDigit s'.fromBase.toNat s'.inputBytes with
  | some k => exact sameResults_failOut (.inl rfl) s s' _ _
  | none =>
    dsimp only
    split
    · exact sameResults_failOut (.inl rfl) s s' _ _
    · exact sameResults_succeedOut (.inl rfl) s s' _

theorem execEenc_sameResults {s s' : State} (h : SameInput s s') (hvar : s.variant = s'.variant) :
    ∃ t t', execEenc s = .next t ∧ execEenc s' = .next t' ∧ SameResults t t' .eenc := by
  refine ⟨_, _, rfl, rfl, ?_⟩
  rw [h.badLength_eq, h.inputBytes_eq, hvar]
  split
  · exact sameResults_failOut (by simp) s s' _ _
  · exact sameResults_succeedOut (by simp) s s' _

theorem execEdec_sameResults {s s' : State} (h : SameInput s s') (hvar : s.variant = s'.variant) :
    ∃ t t', execEdec s = .next t ∧ execEdec s' = .next t' ∧ SameResults t t' .edec := by
  refine ⟨_, _, rfl, rfl, ?_⟩
  rw [h.badLength_eq, h.inputBytes_eq, hvar]
  split
  · exact sameResults_failOut (by simp) s s' _ _
  cases escapeScan s'.variant 0 s'.inputBytes with
  | malformed pos => exact sameResults_failOut (by simp) s s' _ _
  | decoded o => exact sameResults_succeedOut (by simp) s s' _

theorem execSenc_sameResults {s s' : State} (hval : s.value = s'.value) (hvar : s.variant = s'.variant) :
    ∃ t t', execSenc s = .next t ∧ execSenc s' = .next t' ∧ SameResults t t' .senc := by
  refine ⟨_, _, rfl, rfl, ?_⟩
  rw [hval, hvar]
  split
  · exact ⟨rfl, rfl, fun he => absurd he (by simp)⟩
  · exact ⟨rfl, rfl, fun _ => rfl⟩

theorem execSdec_sameResults {s s' : State} (hsafe : s.safe = s'.safe) (hvar : s.variant = s'.variant) :
    ∃ t t', execSdec s = .next t ∧ execSdec s' = .next t' ∧ SameResults t t' .sdec := by
  refine ⟨_, _, rfl, rfl, ?_⟩
  rw [hsafe, hvar]
  cases firstSafeByte s'.safe (fun b => b == 0) with
  | some k => exact ⟨rfl, rfl, fun he => absurd he (by simp)⟩
  | none =>
    cases firstSafeByte s'.safe (fun b => decide (s'.variant.radix ≤ b.toNat - 1)) with
    | some k => exact ⟨rfl, rfl, fun he => absurd he (by simp)⟩
    | none => exact ⟨rfl, rfl, fun _ => rfl⟩

/-! ### The statements -/

/-- Settles O55: no event of the schedule writes the parameters, and their type holds legal values only. -/
theorem parametersNeverChange : Obligations.ParametersNeverChange := fun _ t h =>
  ⟨step_cfg h, t.cfg.inCap_mod_four, t.cfg.four_le_inCap, t.cfg.inCap_le, t.cfg.outCap_eq⟩

/-- Settles O30: command by command, equal operands take both executions through the same branch, and the only values
in which the two ends differ are those the command leaves alone and the drawn bytes beyond OUT_LEN. -/
theorem resultDependsOnlyOnTheOperands : Obligations.ResultDependsOnlyOnTheOperands := by
  intro i s s' h
  cases i with
  | nop => exact ⟨_, _, rfl, rfl, rfl, rfl, trivial⟩
  | conv =>
    obtain ⟨hin, hfrom, hto⟩ := h
    exact execConv_sameResults hin hfrom hto
  | senc =>
    obtain ⟨hval, hvar⟩ := h
    exact execSenc_sameResults hval hvar
  | sdec =>
    obtain ⟨hsafe, hvar⟩ := h
    exact execSdec_sameResults hsafe hvar
  | eenc =>
    obtain ⟨hin, hvar⟩ := h
    exact execEenc_sameResults hin hvar
  | edec =>
    obtain ⟨hin, hvar⟩ := h
    exact execEdec_sameResults hin hvar

end Sys2Proof.Claims

/-! SUPPORT. The proofs of the state statements (10_state.md R20 to R41): every step keeps the invariant, the flags and
the buffers change by their own events only, and the bus reads and writes the registers as their rules say. -/

namespace Sys2Proof

/-- IN has a byte 0, so position 0 is an index of it (R4). -/
theorem Config.inCap_pos (c : Config) : 0 < c.inCap := Nat.lt_of_lt_of_le (by decide) c.four_le_inCap

end Sys2Proof

namespace Sys2Proof.Machine

/-! ### The invariant under each operation (R24, R34, R35, R66, R68, R131, R149)

An operation that leaves a part's fields alone keeps that part as it stands, so each proof names only the parts it moves. -/

/-- What is claimed of a block in reset asks nothing of a ready one. -/
theorem State.heldInReset_of_ready {s : State} (hp : s.phase = .ready) : s.phase = .inReset → s.atResetValues :=
  fun hr => nomatch hp.symm.trans hr

theorem State.Inv.turn {s : State} (hi : s.Inv) : s.turn.Inv := { hi with }

theorem State.Inv.answer {s : State} (hi : s.Inv) (r : BusResponse) : (s.answer r).Inv := { hi with }

theorem State.Inv.releaseReset {s : State} (hi : s.Inv) : s.releaseReset.Inv := by
  cases hp : s.phase with
  | inReset =>
    have hlive : s.phase ≠ .powerLost := by rw [hp]; decide
    rw [State.releaseReset, hp]
    exact { hi with
      busyClear := fun _ => hi.busyClear hlive
      errPosBounded := fun _ => hi.errPosBounded hlive
      outHolds := fun _ => hi.outHolds hlive
      heldInReset := fun hr => nomatch hr }
  | ready => rwa [State.releaseReset, hp]
  | powerLost => rwa [State.releaseReset, hp]

/-- A reset establishes the invariant, whatever the state before (R41, R152). -/
theorem State.toResetValues_inv (s : State) : s.toResetValues.Inv where
  buffersWf := ⟨rfl, rfl, rfl, rfl⟩
  drawsFresh := by simp [State.drawsFresh]
  busyClear := fun _ _ => ⟨rfl, rfl, rfl⟩
  errPosBounded := fun _ => ⟨fun _ => rfl, s.cfg.inCap_pos⟩
  outHolds := fun _ => ⟨rfl, Nat.zero_le _⟩
  heldInReset := fun _ => ⟨rfl, rfl, rfl, rfl, rfl, rfl, rfl, rfl, rfl, rfl, rfl, rfl, rfl, rfl, rfl⟩

/-- After a loss of power the invariant claims the buffers and the draws only (R142). -/
theorem State.losePower_inv (s : State) : s.losePower.Inv where
  buffersWf := ⟨rfl, rfl, rfl, rfl⟩
  drawsFresh := by simp [State.drawsFresh]
  busyClear := fun h => absurd rfl h
  errPosBounded := fun h => absurd rfl h
  outHolds := fun h => absurd rfl h
  heldInReset := fun h => nomatch h

/-- A read may take a draw, which leaves the coming draws fresh (R70; entry 5). -/
theorem State.Inv.busRead {s : State} (hi : s.Inv) (off : Offset) (size : AccessSize) : (s.busRead off size).Inv := by
  obtain ⟨r, d, h, hd⟩ := s.busRead_cases off size
  obtain ⟨hin, hout, hne⟩ := hi.drawsFresh
  rw [h]
  exact { hi with drawsFresh := ⟨by dsimp only; omega, by dsimp only; omega, hne⟩ }

theorem State.Inv.issue {s : State} (hi : s.Inv) (hp : s.phase = .ready) (w : Word) : (s.issue w).Inv :=
  { hi with
    busyClear := fun _ _ => ⟨rfl, rfl, rfl⟩
    errPosBounded := fun _ => ⟨fun _ => rfl, s.cfg.inCap_pos⟩
    heldInReset := State.heldInReset_of_ready hp }

theorem State.Inv.writeStatus {s : State} (hi : s.Inv) (hp : s.phase = .ready) (w : Word) : (s.writeStatus w).Inv :=
  { hi with
    busyClear := fun hl hb => by
      obtain ⟨hdone, hcode, hpos⟩ := hi.busyClear hl hb
      exact ⟨by simp [hdone], hcode, hpos⟩
    heldInReset := State.heldInReset_of_ready hp }

theorem State.Inv.storeIn {s : State} (hi : s.Inv) (hp : s.phase = .ready) {i : Nat} {d : BusData}
    (hend : i + d.size.bytes ≤ s.cfg.inCap) : State.Inv { s with inBuf := s.inBuf.store i d } := by
  obtain ⟨hwf, hwithin, hout⟩ := hi.buffersWf
  exact { hi with
    buffersWf := ⟨Memory.wf_store hwf i d, Memory.within_store hwithin hend, hout⟩
    drawsFresh := by simpa [State.drawsFresh] using hi.drawsFresh
    heldInReset := State.heldInReset_of_ready hp }

/-- Every effect of a write keeps the invariant. -/
theorem WriteEffect.inv {s t : State} {off : Offset} {d : BusData} (h : WriteEffect s off d t) (hi : s.Inv)
    (hp : s.phase = .ready) : t.Inv := by
  cases h with
  | ignored => exact hi
  | dropped => exact { hi with heldInReset := State.heldInReset_of_ready hp }
  | softReset => exact s.toResetValues_inv
  | ctrl w => exact { hi with heldInReset := State.heldInReset_of_ready hp }
  | issue w => exact hi.issue hp w
  | status w => exact hi.writeStatus hp w
  | fromBase b => exact { hi with heldInReset := State.heldInReset_of_ready hp }
  | toBase b => exact { hi with heldInReset := State.heldInReset_of_ready hp }
  | inLen n => exact { hi with heldInReset := State.heldInReset_of_ready hp }
  | value w => exact { hi with heldInReset := State.heldInReset_of_ready hp }
  | safe w => exact { hi with heldInReset := State.heldInReset_of_ready hp }
  | inBuf i hl => exact hi.storeIn hp (locate_inBuf_end hl)

/-- What a write leaves is one of its effects, answered; an access that is answered by an error has the effect of an ignored
one (R45). -/
theorem State.busWrite_effect (s : State) (off : Offset) (d : BusData) :
    ∃ u r, WriteEffect s off d u ∧ s.busWrite off d = u.answer r := by
  rcases s.busWrite_cases off d with ⟨-, h⟩ | ⟨u, hu, h⟩
  · exact ⟨s, .error, .ignored, h⟩
  · exact ⟨u, .done, hu, h⟩

theorem State.Inv.busWrite {s : State} (hi : s.Inv) (hp : s.phase = .ready) (off : Offset) (d : BusData) :
    (s.busWrite off d).Inv := by
  obtain ⟨u, r, hu, h⟩ := s.busWrite_effect off d
  rw [h]
  exact (hu.inv hi hp).answer r

/-- A completion keeps the invariant where its position is an index of IN, and 0 without an error (R68, R131). -/
theorem State.Inv.complete {s : State} (hi : s.Inv) (hp : s.phase = .ready) (e : ErrCode) {p : Nat}
    (hlt : p < s.cfg.inCap) : (s.complete e p).Inv :=
  { hi with
    busyClear := fun _ hb => nomatch hb
    errPosBounded := fun _ => by
      refine ⟨fun he => if_pos he, ?_⟩
      rw [State.complete_errPos, State.complete_cfg]
      split
      · exact Nat.zero_lt_of_lt hlt
      · rwa [errPos_toNat hlt]
    heldInReset := State.heldInReset_of_ready hp }

/-- OUT rewritten with a result that fits and OUT_LEN with its length (R35). -/
theorem State.Inv.holdOut {s : State} (hi : s.Inv) (hp : s.phase = .ready) {o : List Byte}
    (ho : o.length ≤ s.cfg.outCap) :
    State.Inv { s with
      outLen := BitVec.ofNat 18 o.length, outBuf := Memory.holding s.draws o, draws := s.draws + 1 } := by
  obtain ⟨hwf, hwithin, -⟩ := hi.buffersWf
  obtain ⟨hin, -, -⟩ := hi.drawsFresh
  exact { hi with
    buffersWf := ⟨hwf, hwithin, Memory.wf_holding _ o, Memory.within_holding ho⟩
    drawsFresh := ⟨Nat.lt_succ_of_lt hin, Nat.lt_succ_self _, Nat.ne_of_lt hin⟩
    outHolds := fun _ => by
      rw [State.outHolds, outLen_toNat ho]
      exact ⟨by rw [Memory.holding_cells, cellsFrom_indexes, List.range_eq_range'], ho⟩
    heldInReset := State.heldInReset_of_ready hp }

/-- CONV, EENC and EDEC keep the invariant: a failure leaves OUT with no result byte, a success with its own (R68, R35). -/
theorem EndsOut.inv {s t : State} {codes : List ErrCode} (h : EndsOut s codes t) (hi : s.Inv) (hp : s.phase = .ready) :
    t.Inv := by
  rcases h with ⟨e, p, -, -, hlt, rfl⟩ | ⟨o, ho, rfl⟩
  · exact (hi.holdOut hp (o := []) (Nat.zero_le _)).complete hp e hlt
  · exact (hi.holdOut hp ho).complete hp .ok s.cfg.inCap_pos

theorem exec_inv {i : Instr} {s t : State} (h : exec i s = .next t) (hi : s.Inv) (hp : s.phase = .ready) : t.Inv := by
  obtain ⟨u, hu, hc⟩ := exec_cases i s
  obtain rfl : u = t := Host.Outcome.next.inj (hu.symm.trans h)
  rcases hc with ⟨e, p, -, hlt, rfl⟩ | ⟨-, w, rfl⟩ | ⟨-, w, rfl⟩ | ⟨-, codes, he⟩
  · exact hi.complete hp e hlt
  · exact { hi.complete hp .ok s.cfg.inCap_pos with heldInReset := State.heldInReset_of_ready hp }
  · exact { hi.complete hp .ok s.cfg.inCap_pos with heldInReset := State.heldInReset_of_ready hp }
  · exact he.inv hi hp

/-- Every step keeps the invariant: each event by the lemma of its operation. -/
theorem step_inv {s t : State} (hi : s.Inv) (h : step s = .next t) : t.Inv := by
  cases step_cases h with
  | read off size => exact hi.turn.busRead off size
  | write off d he hp => exact hi.turn.busWrite hp off d
  | idle => exact hi.turn
  | command w i he hp hw hd t ht => exact exec_inv ht hi.turn hp
  | illegal w r he hp =>
    exact hi.turn.complete hp .illegalCommand s.cfg.inCap_pos
  | assertReset => exact State.toResetValues_inv { s.turn with phase := .inReset }
  | releaseReset => exact hi.turn.releaseReset
  | powerLoss => exact s.turn.losePower_inv

end Sys2Proof.Machine

namespace Sys2Proof

/-- A word that decodes to a command is that command's word: with RSV = 0 the opcode alone is left to choose (R61, R62). -/
theorem encode_of_decode {w : Word} {i : Instr} (h : decode w = .command i) : w = encode i := by
  unfold decode at h
  dsimp only at h
  split at h
  · rename_i hrsv
    split at h
    · rename_i j hop
      obtain rfl : j = i := Decoded.command.inj h
      have hopcode : (CommandFields.ofWord w).opcode = j.opcode := by
        apply BitVec.eq_of_toNat_eq
        revert hop
        unfold opcodeInstr
        split <;> rintro ⟨⟩ <;> assumption
      rw [encode, ← hopcode, ← hrsv, CommandFields.toWord_ofWord]
    · cases h
  · cases h

end Sys2Proof

namespace Sys2Proof.Machine

/-! ### What a command leaves alone (R37, R68) -/

/-- A command writes VALUE, SAFE, OUT, OUT_LEN, ERRCODE, ERR_POS, DONE and PEND at most, and takes draws. -/
theorem exec_frame {i : Instr} {s t : State} (h : exec i s = .next t) :
    t = { s with
      value := t.value, safe := t.safe, outLen := t.outLen, outBuf := t.outBuf, draws := t.draws
      errCode := t.errCode, errPos := t.errPos, done := true, pend := none } := by
  obtain ⟨u, hu, hc⟩ := exec_cases i s
  obtain rfl : u = t := Host.Outcome.next.inj (hu.symm.trans h)
  rcases hc with ⟨e, p, -, -, rfl⟩ | ⟨-, w, rfl⟩ | ⟨-, w, rfl⟩ | ⟨-, codes, ⟨e, p, -, -, -, rfl⟩ | ⟨o, -, rfl⟩⟩
  · rfl
  · rfl
  · rfl
  · rfl
  · rfl

theorem exec_irqEn {i : Instr} {s t : State} (h : exec i s = .next t) : t.irqEn = s.irqEn :=
  (congrArg State.irqEn (exec_frame h) :)

theorem exec_werr {i : Instr} {s t : State} (h : exec i s = .next t) : t.werr = s.werr :=
  (congrArg State.werr (exec_frame h) :)

theorem exec_inBuf {i : Instr} {s t : State} (h : exec i s = .next t) : t.inBuf = s.inBuf :=
  (congrArg State.inBuf (exec_frame h) :)

/-- Only CONV, EENC and EDEC touch OUT and OUT_LEN (R35). -/
theorem exec_keeps_out {i : Instr} {s t : State} (h : exec i s = .next t) (hi : ¬ (i = .conv ∨ i = .eenc ∨ i = .edec)) :
    t.outLen = s.outLen ∧ t.outBuf = s.outBuf := by
  obtain ⟨u, hu, hc⟩ := exec_cases i s
  obtain rfl : u = t := Host.Outcome.next.inj (hu.symm.trans h)
  rcases hc with ⟨e, p, -, -, rfl⟩ | ⟨-, w, rfl⟩ | ⟨-, w, rfl⟩ | ⟨ho, -⟩
  · exact ⟨rfl, rfl⟩
  · exact ⟨rfl, rfl⟩
  · exact ⟨rfl, rfl⟩
  · exact absurd ho hi

/-! ### What a read leaves alone (R49) -/

theorem State.busRead_frame (s : State) (off : Offset) (size : AccessSize) :
    s.busRead off size =
      { s with draws := (s.busRead off size).draws, response := (s.busRead off size).response } := by
  obtain ⟨r, d, h, -⟩ := s.busRead_cases off size
  rw [h]

theorem State.busRead_irq (s : State) (off : Offset) (size : AccessSize) : (s.busRead off size).irq = s.irq :=
  (congrArg State.irq (s.busRead_frame off size) :)

theorem State.busRead_werr (s : State) (off : Offset) (size : AccessSize) : (s.busRead off size).werr = s.werr :=
  (congrArg State.werr (s.busRead_frame off size) :)

theorem State.busRead_inByte (s : State) (off : Offset) (size : AccessSize) (i : Nat) :
    (s.busRead off size).inByte i = s.inByte i :=
  (congrArg (State.inByte · i) (s.busRead_frame off size) :)

theorem State.busRead_outLen (s : State) (off : Offset) (size : AccessSize) : (s.busRead off size).outLen = s.outLen :=
  (congrArg State.outLen (s.busRead_frame off size) :)

theorem State.busRead_outByte (s : State) (off : Offset) (size : AccessSize) (i : Nat) :
    (s.busRead off size).outByte i = s.outByte i :=
  (congrArg (State.outByte · i) (s.busRead_frame off size) :)

/-! ### What a write does to IRQ, WERR, IN and OUT -/

theorem State.irq_iff (s : State) : s.irq = true ↔ s.irqEn = true ∧ s.done = true := Bool.and_eq_true_iff

theorem State.busy_of_pend {s : State} {w : Word} (h : s.pend = some w) : s.busy = true := by
  rw [State.busy, h]
  rfl

/-- A write raises IRQ only where DONE is 1 and CTRL.IRQ_EN is written with 1 (R40, R135). -/
theorem WriteEffect.irq_rises {s t : State} {off : Offset} {d : BusData} (h : WriteEffect s off d t)
    (hlow : s.irq = false) (hhigh : t.irq = true) :
    s.done = true ∧ ∃ w, off = 0x004 ∧ d = .word w ∧ w.getLsbD 1 = true := by
  obtain ⟨hen, hdone⟩ := t.irq_iff.mp hhigh
  cases h with
  | ctrl w ho hd => exact ⟨hdone, w, ho, hd, hen⟩
  | softReset => cases hdone
  | issue w => cases hdone
  | status w =>
    obtain ⟨hdone, -⟩ := Bool.and_eq_true_iff.mp hdone
    exact absurd (s.irq_iff.mpr ⟨hen, hdone⟩) (by simp [hlow])
  | _ => exact absurd (s.irq_iff.mpr ⟨hen, hdone⟩) (by simp [hlow])

/-- A write sets WERR only where it is dropped (R69). -/
theorem WriteEffect.werr_set {s t : State} {off : Offset} {d : BusData} (h : WriteEffect s off d t)
    (hclear : s.werr = false) (hset : t.werr = true) : s.busy = true := by
  cases h with
  | dropped hb => exact hb
  | softReset => cases hset
  | status w => exact absurd (Bool.and_eq_true_iff.mp hset).1 (by simp [hclear])
  | _ => exact absurd (hclear.symm.trans hset) (by decide)

/-- A write clears WERR only through STATUS bit 3 or as a soft reset (R24, R157). -/
theorem WriteEffect.werr_cleared {s t : State} {off : Offset} {d : BusData} (h : WriteEffect s off d t)
    (hset : s.werr = true) (hclear : t.werr = false) :
    (∃ w, off = 0x00C ∧ d = .word w ∧ w.getLsbD 3 = true) ∨ ∃ w, off = 0x004 ∧ d = .word w ∧ w.getLsbD 31 = true := by
  cases h with
  | dropped => cases hclear
  | softReset w ho hd h31 => exact .inr ⟨w, ho, hd, h31⟩
  | status w ho hd => exact .inl ⟨w, ho, hd, by simpa [hset] using hclear⟩
  | _ => exact absurd (hset.symm.trans hclear) (by decide)

section

variable {s t : State} {off : Offset} {d : BusData} (h : WriteEffect s off d t)
  (hreset : ∀ w, off = 0x004 → d = .word w → w.getLsbD 31 = false)

include h hreset

/-- A write that is no soft reset keeps the IN bytes that it does not cover (R34, R47). -/
theorem WriteEffect.inByte_eq {i : Nat}
    (hcover : 0x10000 + i < off.toNat ∨ off.toNat + d.size.bytes ≤ 0x10000 + i) : t.inByte i = s.inByte i := by
  cases h with
  | softReset w ho hd h31 => exact absurd (h31.symm.trans (hreset w ho hd)) (by decide)
  | inBuf j hl =>
    obtain ⟨hoff, -, -⟩ := locate_inBuf_iff.mp hl
    exact s.inBuf.read_store_outside (by omega)
  | _ => rfl

/-- A write that is no soft reset keeps OUT and OUT_LEN (R35, R160). -/
theorem WriteEffect.out_eq : t.outLen = s.outLen ∧ ∀ i, t.outByte i = s.outByte i := by
  cases h with
  | softReset w ho hd h31 => exact absurd (h31.symm.trans (hreset w ho hd)) (by decide)
  | _ => exact ⟨rfl, fun _ => rfl⟩

end

/-! ### STATUS and CTRL as words (R22, R24) -/

/-- The four flags of STATUS, each at its bit. -/
theorem State.statusWord_flags (s : State) :
    s.statusWord.getLsbD 0 = s.busy ∧ s.statusWord.getLsbD 1 = s.done ∧ s.statusWord.getLsbD 2 = s.err ∧
    s.statusWord.getLsbD 3 = s.werr := by
  simp only [State.statusWord, bit, BitVec.getLsbD_append]
  simp

/-- ERRCODE in bits 11:8 of STATUS, between two fields of zeros. -/
theorem State.statusWord_fields (s : State) :
    s.statusWord.extractLsb' 4 4 = 0 ∧ s.statusWord.extractLsb' 8 4 = s.errCode.number ∧
    s.statusWord.extractLsb' 12 20 = 0 := by
  refine ⟨?_, ?_, ?_⟩
  all_goals
    apply BitVec.eq_of_getLsbD_eq
    intro k hk
    simp (disch := omega) only [State.statusWord, BitVec.getLsbD_extractLsb', BitVec.getLsbD_append, if_neg]
    simp [hk]

theorem State.ctrlWord_eq (s : State) :
    s.ctrlWord = (if s.irqEn then 2 else 0) + (if s.variant = .v1 then 1 else 0) := by
  rw [State.ctrlWord]
  cases s.irqEn <;> cases s.variant <;> rfl

/-! ### Idle register writes (R22, R25 to R30) -/

theorem State.unlessBusy_idle {s : State} (hb : s.busy = false) (effect : State) : s.unlessBusy effect = effect := by
  rw [State.unlessBusy, hb]
  rfl

/-- A register write that a busy block would drop has its effect while idle (R43, R69). -/
theorem step_writeReg_idle {s e : State} {off : Offset} {r : Reg} {w : Word}
    (hl : locate s.cfg off .four = some (.reg r)) (hp : s.phase = .ready) (hb : s.busy = false)
    (he : s.nextInput = .write off (.word w)) (heffect : s.turn.writeReg w r = s.turn.unlessBusy e) :
    step s = .next (e.answer .done) := by
  have hb' : s.turn.busy = false := hb
  rw [step_writeReg hl hp he, heffect, State.unlessBusy_idle hb']

/-- A register field keeps the written word modulo its width (R39). -/
theorem extractLsb'_zero_eq_ofNat (w : Word) (n : Nat) : w.extractLsb' 0 n = BitVec.ofNat n (w.toNat % 2 ^ n) := by
  apply BitVec.eq_of_toNat_eq
  simp

end Sys2Proof.Machine

namespace Sys2Proof.Claims

open Sys2Proof.Machine

/-! ### The statements -/

/-- Settles O57: State.reset is a reset of a block whose next draw is number 0. -/
theorem resetStateMeetsTheInvariant : Obligations.ResetStateMeetsTheInvariant :=
  State.toResetValues_inv { State.reset with draws := 0 }

/-- Settles O58, event by event of the schedule. -/
theorem stepKeepsTheInvariant : Obligations.StepKeepsTheInvariant := fun _ _ => step_inv

/-- Settles O51: of the events that move IRQ, the engine's turn leaves IRQ_EN alone and a write raises it through CTRL only. -/
theorem irqRisesOnlyByCompletionOrEnable : Obligations.IrqRisesOnlyByCompletionOrEnable := by
  refine ⟨fun _ => rfl, fun s t h hlow hhigh hpower => ?_⟩
  have hmoves : t.irq ≠ s.irq := by rw [hlow, hhigh]; decide
  obtain ⟨hen, hdone⟩ := t.irq_iff.mp hhigh
  cases step_cases h with
  | read off size => exact absurd (s.turn.busRead_irq off size) hmoves
  | write off d he =>
    obtain ⟨u, r, hu, hw⟩ := s.turn.busWrite_effect off d
    rw [hw] at hhigh
    obtain ⟨hdone', w, rfl, rfl, hbit⟩ := hu.irq_rises hlow hhigh
    exact .inr ⟨hdone', w, he, hbit⟩
  | idle => exact absurd rfl hmoves
  | command w i he hp hw hd t ht => exact .inl ⟨he, State.busy_of_pend hw, (exec_irqEn ht).symm.trans hen⟩
  | illegal w r he hp hw => exact .inl ⟨he, State.busy_of_pend hw, hen⟩
  | assertReset => cases hdone
  | releaseReset => exact absurd (by simp [State.irq]) hmoves
  | powerLoss he => exact absurd he hpower

/-- Settles O52: only a write and a reset move WERR, and a write does so by one of its effects. -/
theorem werrIsStickyUntilCleared : Obligations.WerrIsStickyUntilCleared := by
  intro s t h hpower
  by_cases hsame : t.werr = s.werr
  · rw [hsame]
    exact ⟨fun h0 h1 => absurd (h0.symm.trans h1) (by decide), fun h1 h0 => absurd (h0.symm.trans h1) (by decide)⟩
  cases step_cases h with
  | read off size => exact absurd (s.turn.busRead_werr off size) hsame
  | write off d he =>
    obtain ⟨u, r, hu, hw⟩ := s.turn.busWrite_effect off d
    rw [hw]
    refine ⟨fun h0 h1 => ⟨hu.werr_set h0 h1, off, d, he⟩, fun h1 h0 => .inr ?_⟩
    rcases hu.werr_cleared h1 h0 with ⟨w, rfl, rfl, hbit⟩ | ⟨w, rfl, rfl, hbit⟩
    · exact .inl ⟨w, he, hbit⟩
    · exact .inr ⟨w, he, hbit⟩
  | idle => exact absurd rfl hsame
  | command w i he hp hw hd t ht => exact absurd (exec_werr ht) hsame
  | illegal => exact absurd rfl hsame
  | assertReset he => exact ⟨fun _ h1 => (nomatch h1), fun _ _ => .inl he⟩
  | releaseReset => exact absurd s.turn.releaseReset_werr hsame
  | powerLoss he => exact absurd he hpower

/-- Settles O53: only the store of a write that is not dropped moves an IN byte, and it moves the bytes it covers only. -/
theorem inByteKeepsItsValueUntilWritten : Obligations.InByteKeepsItsValueUntilWritten := by
  intro s t i h hpower hassert hsoft hcover
  cases step_cases h with
  | read off size => exact s.turn.busRead_inByte off size i
  | write off d he =>
    obtain ⟨u, r, hu, hw⟩ := s.turn.busWrite_effect off d
    rw [hw]
    exact hu.inByte_eq (fun w ho hd => hsoft w (by rw [he, ho, hd])) (hcover off d he)
  | idle => rfl
  | command w i' he hp hw hd t ht => exact (congrArg (Memory.read · i) (exec_inBuf ht) :)
  | illegal => rfl
  | assertReset he => exact absurd he hassert
  | releaseReset => exact congrArg (Memory.read · i) s.turn.releaseReset_inBuf
  | powerLoss he => exact absurd he hpower

/-- Settles O54: no write reaches OUT, and a word whose command touches it is CONV's, EENC's or EDEC's. -/
theorem outputSurvivesEverythingElse : Obligations.OutputSurvivesEverythingElse := by
  intro s t h hpower hassert hsoft hother
  cases step_cases h with
  | read off size => exact ⟨s.turn.busRead_outLen off size, s.turn.busRead_outByte off size⟩
  | write off d he =>
    obtain ⟨u, r, hu, hw⟩ := s.turn.busWrite_effect off d
    rw [hw]
    exact hu.out_eq fun w ho hd => hsoft w (by rw [he, ho, hd])
  | idle => exact ⟨rfl, fun _ => rfl⟩
  | command w i he hp hw hd t ht =>
    obtain ⟨hconv, heenc, hedec⟩ := hother he w hw
    have hi : ¬ (i = .conv ∨ i = .eenc ∨ i = .edec) := by
      rintro (rfl | rfl | rfl)
      · exact hconv (encode_of_decode hd)
      · exact heenc (encode_of_decode hd)
      · exact hedec (encode_of_decode hd)
    obtain ⟨hlen, hbuf⟩ := exec_keeps_out ht hi
    exact ⟨hlen, fun j => congrArg (Memory.read · j) hbuf⟩
  | illegal => exact ⟨rfl, fun _ => rfl⟩
  | assertReset he => exact absurd he hassert
  | releaseReset => exact ⟨s.turn.releaseReset_outLen, fun j => congrArg (Memory.read · j) s.turn.releaseReset_outBuf⟩
  | powerLoss he => exact absurd he hpower

/-- Settles O34: the word read is `State.statusWord`, whose fields stand in place. -/
theorem statusReadsItsFlagsInPlace : Obligations.StatusReadsItsFlagsInPlace := by
  intro s hp he
  obtain ⟨hbusy, hdone, herr, hwerr⟩ := s.statusWord_flags
  exact ⟨s.statusWord, step_readReg (r := .status) rfl hp (.inl rfl) he, hbusy, hdone, herr, hwerr, s.statusWord_fields⟩

/-- Settles O35: each offset is that of a register, and the word listed with it is what that register reads as. -/
theorem registerReadsReturnTheRegisters : Obligations.RegisterReadsReturnTheRegisters := by
  intro s hp hb off w hrow he
  obtain ⟨r, hl, hw⟩ : ∃ r, locate s.cfg off .four = some (.reg r) ∧ s.readReg r = w := by
    simp only [List.mem_cons, Prod.mk.injEq, List.not_mem_nil, or_false] at hrow
    rcases hrow with ⟨rfl, rfl⟩ | ⟨rfl, rfl⟩ | ⟨rfl, rfl⟩ | ⟨rfl, rfl⟩ | ⟨rfl, rfl⟩ | ⟨rfl, rfl⟩ | ⟨rfl, rfl⟩ |
      ⟨rfl, rfl⟩ | ⟨rfl, rfl⟩ | ⟨rfl, rfl⟩ | ⟨rfl, rfl⟩ | ⟨rfl, rfl⟩
    · exact ⟨.id, rfl, rfl⟩
    · exact ⟨.ctrl, rfl, s.ctrlWord_eq⟩
    · exact ⟨.cmd, rfl, rfl⟩
    · exact ⟨.fromBase, rfl, rfl⟩
    · exact ⟨.toBase, rfl, rfl⟩
    · exact ⟨.inLen, rfl, rfl⟩
    · exact ⟨.outLen, rfl, rfl⟩
    · exact ⟨.value, rfl, rfl⟩
    · exact ⟨.safe, rfl, rfl⟩
    · exact ⟨.errPos, rfl, rfl⟩
    · exact ⟨.inCap, rfl, rfl⟩
    · exact ⟨.outCap, rfl, rfl⟩
  subst w
  exact step_readReg hl hp (.inr hb) he

/-- Settles O36: while idle no write is dropped, and the bits a register keeps are the low ones of the word. -/
theorem registerWritesReachTheirFieldOnly : Obligations.RegisterWritesReachTheirFieldOnly := by
  intro s w hp hb
  have low9 : w.extractLsb' 0 9 = BitVec.ofNat 9 (w.toNat % 512) := extractLsb'_zero_eq_ofNat w 9
  have low17 : w.extractLsb' 0 17 = BitVec.ofNat 17 (w.toNat % 131072) := extractLsb'_zero_eq_ofNat w 17
  rw [← low9, ← low17]
  refine ⟨fun he h31 => ?_, fun he => ?_, fun he => ?_, fun he => ?_, fun he => ?_, fun he => ?_⟩
  · have hkeep : ¬ softResetBit w = true := by rw [softResetBit, h31]; decide
    exact (step_writeReg_idle (r := .ctrl) rfl hp hb he (if_neg hkeep) :)
  · exact (step_writeReg_idle (r := .fromBase) rfl hp hb he rfl :)
  · exact (step_writeReg_idle (r := .toBase) rfl hp hb he rfl :)
  · exact (step_writeReg_idle (r := .inLen) rfl hp hb he rfl :)
  · exact (step_writeReg_idle (r := .value) rfl hp hb he rfl :)
  · exact (step_writeReg_idle (r := .safe) rfl hp hb he rfl :)

/-- Settles O37: a STATUS write is never dropped. -/
theorem statusWriteClearsDoneAndWerr : Obligations.StatusWriteClearsDoneAndWerr := fun _ _ hp he =>
  step_writeReg (r := .status) rfl hp he

/-- Settles O44: the registers by evaluation, the bytes as those of draws 0 and 1. -/
theorem resetStateHasTheSpecsValues : Obligations.ResetStateHasTheSpecsValues :=
  ⟨rfl, rfl, rfl, rfl, rfl, rfl, rfl, rfl, rfl, rfl, rfl, rfl, rfl, rfl, rfl, rfl, fun _ => ⟨0, rfl⟩, fun _ => ⟨1, rfl⟩⟩

end Sys2Proof.Claims

/-! SUPPORT. The proofs of the memory statements (20_memory.md R42 to R51): which accesses are answered by a bus error,
what a buffer access returns and stores, and what a read, an ignored write and a step under a pending command leave alone. -/

namespace Sys2Proof.Machine

open Sys2Proof.Claims

/-! ### Where an access lands (R42 to R45) -/

theorem AccessSize.bytes_eq_four {z : AccessSize} : z.bytes = 4 ↔ z = .four := by cases z <;> decide

/-- The windows start at multiples of 4, so that an offset is aligned where the index in the window is (R44). -/
theorem AccessSize.aligned_add (z : AccessSize) {base : Nat} (hbase : base % 4 = 0) (i : Nat) :
    (base + i) % z.bytes = 0 ↔ i % z.bytes = 0 := by
  rcases z.bytes_cases with hz | hz | hz <;> rw [hz] <;> omega

theorem registerAt_of_lt {k : Nat} (h : k < 13) : ∃ r, registerAt k = some r := by
  interval_cases k <;> exact ⟨_, rfl⟩

theorem locate_inBuf {cfg : Config} {off : Offset} {size : AccessSize} {i : Nat} (hoff : off.toNat = 0x10000 + i)
    (hi : i < cfg.inCap) (ha : i % size.bytes = 0) : locate cfg off size = some (.inBuf i) :=
  locate_inBuf_iff.mpr ⟨hoff, hi, by rw [hoff]; exact (size.aligned_add rfl i).mpr ha⟩

theorem locate_outBuf {cfg : Config} {off : Offset} {size : AccessSize} {i : Nat} (hoff : off.toNat = 0x20000 + i)
    (hi : i < cfg.outCap) (ha : i % size.bytes = 0) : locate cfg off size = some (.outBuf i) :=
  locate_outBuf_iff.mpr ⟨hoff, hi, by rw [hoff]; exact (size.aligned_add rfl i).mpr ha⟩

/-- The accesses that reach a location are those of R42 to R44. -/
theorem exists_locate_iff {cfg : Config} {off : Offset} {size : AccessSize} :
    (∃ x, locate cfg off size = some x) ↔ AccessOk cfg off.toNat size.bytes := by
  constructor
  · rintro ⟨x, hx⟩
    cases x with
    | reg r =>
      obtain ⟨hlt, hsize, ha, -⟩ := locate_reg_iff.mp hx
      exact .inl ⟨hlt, AccessSize.bytes_eq_four.mpr hsize, ha⟩
    | inBuf i =>
      obtain ⟨hoff, hi, ha⟩ := locate_inBuf_iff.mp hx
      exact .inr (.inl ⟨by omega, by omega, ha⟩)
    | outBuf i =>
      obtain ⟨hoff, hi, ha⟩ := locate_outBuf_iff.mp hx
      exact .inr (.inr ⟨by omega, by omega, ha⟩)
  · rintro (⟨hlt, hsize, ha⟩ | ⟨hle, hlt, ha⟩ | ⟨hle, hlt, ha⟩)
    · obtain ⟨r, hr⟩ := registerAt_of_lt (k := off.toNat / 4) (by omega)
      exact ⟨.reg r, locate_reg_iff.mpr ⟨hlt, AccessSize.bytes_eq_four.mp hsize, ha, hr⟩⟩
    · exact ⟨.inBuf (off.toNat - 0x10000), locate_inBuf_iff.mpr ⟨by omega, by omega, ha⟩⟩
    · exact ⟨.outBuf (off.toNat - 0x20000), locate_outBuf_iff.mpr ⟨by omega, by omega, ha⟩⟩

theorem locate_eq_none_iff {cfg : Config} {off : Offset} {size : AccessSize} :
    locate cfg off size = none ↔ ¬ AccessOk cfg off.toNat size.bytes := by
  rw [← exists_locate_iff, ← Option.ne_none_iff_exists', not_not]

/-! ### What the port answers (R43, R45, R47) -/

theorem State.busRead_unlocated {s : State} {off : Offset} {size : AccessSize} (hl : locate s.cfg off size = none) :
    s.busRead off size = s.answer .error := by
  rw [State.busRead, hl]

theorem State.busRead_located {s : State} {off : Offset} {size : AccessSize} {x : Target}
    (hl : locate s.cfg off size = some x) :
    s.busRead off size =
      if s.busy && x.openWhileBusy then
        { s with draws := s.draws + 1 }.answer (.data (BusData.ofWord (Config.freeData s.draws) size))
      else s.answer (.data (s.readTarget size x)) := by
  rw [State.busRead, hl]

theorem State.busWrite_unlocated {s : State} {off : Offset} {d : BusData} (hl : locate s.cfg off d.size = none) :
    s.busWrite off d = s.answer .error := by
  rw [State.busWrite, hl]

theorem State.busWrite_located {s : State} {off : Offset} {d : BusData} {x : Target}
    (hl : locate s.cfg off d.size = some x) : s.busWrite off d = (s.writeTarget d x).answer .done := by
  rw [State.busWrite, hl]

theorem State.busRead_located_response {s : State} {off : Offset} {size : AccessSize} {x : Target}
    (hl : locate s.cfg off size = some x) : ∃ d, (s.busRead off size).response = some (.data d) := by
  rw [State.busRead_located hl]
  split
  · exact ⟨_, rfl⟩
  · exact ⟨_, rfl⟩

/-- While idle every location's value is defined, and a read takes no draw (R70). -/
theorem State.busRead_draws_idle {s : State} (hb : s.busy = false) (off : Offset) (size : AccessSize) :
    (s.busRead off size).draws = s.draws := by
  cases hl : locate s.cfg off size with
  | none => rw [State.busRead_unlocated hl, State.answer_draws]
  | some x => rw [State.busRead_located hl, hb, Bool.false_and, if_neg Bool.false_ne_true, State.answer_draws]

/-- A read of a location whose value is defined at the time (R47, R49, R70). -/
theorem step_readTarget {s : State} {off : Offset} {size : AccessSize} {x : Target}
    (hl : locate s.cfg off size = some x) (hp : s.phase = .ready) (hdef : x.openWhileBusy = false ∨ s.busy = false)
    (he : s.nextInput = .read off size) :
    step s = .next (s.turn.answer (.data (s.turn.readTarget size x))) := by
  have hclosed : ¬ (s.turn.busy && x.openWhileBusy) = true := by
    rw [show s.turn.busy = s.busy from rfl]
    rcases hdef with h | h <;> simp [h]
  rw [step_read hp he, State.busRead_located (s := s.turn) hl, if_neg hclosed]

/-- A write to a location (R45, R48). -/
theorem step_writeTarget {s : State} {off : Offset} {d : BusData} {x : Target}
    (hl : locate s.cfg off d.size = some x) (hp : s.phase = .ready) (he : s.nextInput = .write off d) :
    step s = .next ((s.turn.writeTarget d x).answer .done) := by
  rw [step_write hp he, State.busWrite_located (s := s.turn) hl]

/-- If reaching no location is what makes an access's answer a bus error, the answer is one exactly where R45 says so, and
the step then has no other effect. -/
theorem busError_iff_not_accessOk {s t : State} {off : Offset} {size : AccessSize}
    (hnone : locate s.cfg off size = none → t = s.turn.answer .error)
    (hsome : ∀ x, locate s.cfg off size = some x → t.response ≠ some .error) :
    (t.response = some .error ↔ ¬ AccessOk s.cfg off.toNat size.bytes) ∧
    (¬ AccessOk s.cfg off.toNat size.bytes → t = { popped s with response := some .error }) := by
  rw [← locate_eq_none_iff]
  refine ⟨⟨fun herror => ?_, fun hl => by rw [hnone hl]; rfl⟩, hnone⟩
  exact Option.eq_none_iff_forall_ne_some.mpr fun x hx => hsome x hx herror

/-! ### The bytes of a store (R47) -/

theorem Memory.read_store_byte (m : Memory) (i : Nat) (b : BitVec 8) : (m.store i (.byte b)).read i = b := by
  simp [Memory.store, Memory.read_write]

theorem Memory.read_store_half (m : Memory) (i : Nat) (h : BitVec 16) :
    (m.store i (.half h)).read i = h.extractLsb' 0 8 ∧ (m.store i (.half h)).read (i + 1) = h.extractLsb' 8 8 := by
  simp [Memory.store, Memory.read_write]

theorem Memory.read_store_word (m : Memory) (i : Nat) (w : BitVec 32) :
    (m.store i (.word w)).read i = w.extractLsb' 0 8 ∧ (m.store i (.word w)).read (i + 1) = w.extractLsb' 8 8 ∧
    (m.store i (.word w)).read (i + 2) = w.extractLsb' 16 8 ∧
    (m.store i (.word w)).read (i + 3) = w.extractLsb' 24 8 := by
  simp [Memory.store, Memory.read_write]

/-- An idle write to IN stores its data there (R44, R47). -/
theorem step_storeIn {s : State} {off : Offset} {d : BusData} {i : Nat}
    (hl : locate s.cfg off d.size = some (.inBuf i)) (hp : s.phase = .ready) (hb : s.busy = false)
    (he : s.nextInput = .write off d) :
    step s = .next ({ s.turn with inBuf := s.inBuf.store i d }.answer .done) := by
  have hb' : s.turn.busy = false := hb
  rw [step_writeTarget hl hp he, State.writeTarget, State.unlessBusy_idle hb', State.turn_inBuf]

/-! ### Steps under a pending command (R51, R69) -/

/-- A write under a command that it leaves pending is dropped, ignored or one to STATUS. -/
theorem WriteEffect.busy_frame {s t : State} {off : Offset} {d : BusData} (h : WriteEffect s off d t)
    (hb : s.busy = true) (ht : t.busy = true) : t = { s with done := t.done, werr := t.werr } := by
  cases h with
  | ignored => rfl
  | dropped => rfl
  | status => rfl
  | softReset => cases ht
  | _ =>
    rename_i hidle
    exact absurd (hb.symm.trans hidle) (by decide)

theorem State.releaseReset_of_ready {s : State} (hp : s.phase = .ready) : s.releaseReset = s := by
  rw [State.releaseReset, hp]

theorem State.not_busy_of_pend_none {s : State} (h : s.pend = none) : ¬ s.busy = true := by simp [State.busy, h]

/-- While a command stays pending, a step moves DONE, WERR and the model's own fields at most. -/
theorem step_busy_frame {s t : State} (h : step s = .next t) (hp : s.phase = .ready) (hb : s.busy = true)
    (ht : t.busy = true) (hpower : s.nextInput ≠ .powerLoss) :
    t = { s with
      done := t.done, werr := t.werr, draws := t.draws, inputs := t.inputs, response := t.response } := by
  cases step_cases h with
  | read off size =>
    rw [s.turn.busRead_frame off size]
    rfl
  | write off d =>
    obtain ⟨u, r, hu, hw⟩ := s.turn.busWrite_effect off d
    rw [hw] at ht ⊢
    rw [hu.busy_frame hb ht]
    rfl
  | idle => rfl
  | command w i he hp hw hd t hexec =>
    exact absurd ht (State.not_busy_of_pend_none (congrArg State.pend (exec_frame hexec)))
  | illegal => cases ht
  | assertReset => cases ht
  | releaseReset =>
    rw [State.releaseReset_of_ready (s := s.turn) hp]
    rfl
  | powerLoss he => exact absurd he hpower

end Sys2Proof.Machine

namespace Sys2Proof.Claims

open Sys2Proof.Machine

/-! ### The statements -/

/-- Settles O31: a bus error is the answer exactly where the access reaches no location. -/
theorem busErrorExactlyWhereTheRulesSay : Obligations.BusErrorExactlyWhereTheRulesSay := by
  refine ⟨fun s off size hp he => ⟨_, step_read hp he, ?_⟩, fun s off d hp he => ⟨_, step_write hp he, ?_⟩⟩
  · refine busError_iff_not_accessOk (State.busRead_unlocated (s := s.turn)) fun x hx => ?_
    obtain ⟨d, hd⟩ := State.busRead_located_response (s := s.turn) hx
    rw [hd]
    nofun
  · refine busError_iff_not_accessOk (State.busWrite_unlocated (s := s.turn)) fun x hx => ?_
    rw [State.busWrite_located (s := s.turn) hx]
    nofun

/-- Settles O38: either window's read is `Memory.load` at the index of its offset, in each size. -/
theorem bufferReadsAreLittleEndian : Obligations.BufferReadsAreLittleEndian := by
  intro s i off hp m hwindow
  have hload : ∀ size : AccessSize, i % size.bytes = 0 → s.nextInput = .read off size →
      step s = .next (s.turn.answer (.data (m.load i size))) := by
    intro size ha he
    rcases hwindow with ⟨rfl, hoff, hi⟩ | ⟨rfl, hoff, hi, hb⟩
    · exact step_readTarget (locate_inBuf hoff hi ha) hp (.inl rfl) he
    · exact step_readTarget (locate_outBuf hoff hi ha) hp (.inr hb) he
  exact ⟨hload .one (Nat.mod_one i), fun he ha => hload .two ha he, fun he ha => hload .four ha he⟩

/-- Settles O39: the step is a `Memory.store`, which writes the lanes of its data and no other byte. -/
theorem inWindowWritesStoreLittleEndian : Obligations.InWindowWritesStoreLittleEndian := by
  intro s i off d hp hb hoff hi ha he
  refine ⟨_, step_storeIn (locate_inBuf hoff hi ha) hp hb he, rfl, fun j hj => s.inBuf.read_store_outside hj, ?_⟩
  cases d with
  | byte b => exact s.inBuf.read_store_byte i b
  | half h => exact s.inBuf.read_store_half i h
  | word w => exact s.inBuf.read_store_word i w

/-- Settles O49: a step under a command that stays pending moves no operand, by its frame. -/
theorem operandsAreFrozenWhileBusy : Obligations.OperandsAreFrozenWhileBusy := by
  intro s t hp hb h ht hpower
  rw [step_busy_frame h hp hb ht hpower]
  exact ⟨rfl, rfl, rfl, rfl, rfl, rfl, rfl, rfl, rfl⟩

/-- Settles O33: a read moves the answer and the counter of draws at most, and the counter only while busy. -/
theorem readsHaveNoSideEffect : Obligations.ReadsHaveNoSideEffect := by
  intro s off size hp he
  obtain ⟨r, d, hread, -⟩ := s.turn.busRead_cases off size
  refine ⟨_, r, step_read hp he, ?_, fun hb => s.turn.busRead_draws_idle hb off size⟩
  rw [hread]
  rfl

/-- Settles O42: the locations named are those whose write is no effect at all. -/
theorem readOnlyWritesAreIgnored : Obligations.ReadOnlyWritesAreIgnored := by
  refine fun s hp => ⟨fun off w hmem he => ?_, fun off d hle hlt ha he => ?_⟩
  · simp only [List.mem_cons, List.not_mem_nil, or_false] at hmem
    rcases hmem with rfl | rfl | rfl | rfl | rfl
    · exact step_writeReg (r := .id) rfl hp he
    · exact step_writeReg (r := .outLen) rfl hp he
    · exact step_writeReg (r := .errPos) rfl hp he
    · exact step_writeReg (r := .inCap) rfl hp he
    · exact step_writeReg (r := .outCap) rfl hp he
  · have hl : locate s.cfg off d.size = some (.outBuf (off.toNat - 0x20000)) :=
      locate_outBuf_iff.mpr ⟨by omega, by omega, ha⟩
    exact step_writeTarget hl hp he

end Sys2Proof.Claims

/-! SUPPORT. The proofs of the encoding statements (30_encoding.md R60 to R63): a command is selected by the whole word, the
illegal words are the others, and the engine's turn completes each of these alike. -/

namespace Sys2Proof

/-! ### Which words are commands (R61, R62) -/

theorem decode_encode (i : Instr) : decode (encode i) = .command i := by cases i <;> rfl

theorem decode_eq_command_iff {w : Word} {i : Instr} : decode w = .command i ↔ w = encode i := by
  refine ⟨encode_of_decode, ?_⟩
  rintro rfl
  exact decode_encode i

/-- A word is illegal where it is no command's: the decoder has no third answer (R62). -/
theorem exists_decode_illegal_iff_ne_encode {w : Word} : (∃ r, decode w = .illegal r) ↔ ∀ i, w ≠ encode i := by
  simp only [ne_eq, ← decode_eq_command_iff]
  cases decode w with
  | command j => simp
  | illegal r => simp

/-- The opcodes from 6 on are the unassigned ones (R61, R62). -/
theorem opcodeInstr_eq_none_iff {n : Nat} : opcodeInstr n = none ↔ 6 ≤ n := by
  refine ⟨fun h => Nat.le_of_not_lt fun hlt => ?_, opcodeInstr_none⟩
  have assigned : ∀ k < 6, opcodeInstr k ≠ none := by decide
  exact assigned n hlt h

/-- The two ways for a word to be illegal: an unassigned opcode, or a reserved bit that is set (R62). -/
theorem exists_decode_illegal_iff_fields {w : Word} :
    (∃ r, decode w = .illegal r) ↔
      6 ≤ (CommandFields.ofWord w).opcode.toNat ∨ (CommandFields.ofWord w).rsv ≠ 0 := by
  rw [← opcodeInstr_eq_none_iff, decode]
  by_cases hrsv : (CommandFields.ofWord w).rsv = 0
  · cases hop : opcodeInstr (CommandFields.ofWord w).opcode.toNat with
    | none => simp [hrsv]
    | some i => simp [hrsv]
  · rw [if_neg hrsv]
    exact iff_of_true ⟨_, rfl⟩ (.inr hrsv)

end Sys2Proof

namespace Sys2Proof.Machine

/-- The engine's turn completes a pending illegal word, whichever way it is illegal (R67, R73). -/
theorem step_engine_illegal {s : State} {w : Word} {r : IllegalCommand} (hp : s.phase = .ready)
    (he : s.nextInput = .engine) (hw : s.pend = some w) (hd : decode w = .illegal r) :
    step s = .next (runIllegal s.turn) := by
  rw [step_engine hp he hw, hd]

end Sys2Proof.Machine

namespace Sys2Proof.Claims

open Sys2Proof.Machine

/-! ### The statements -/

/-- Settles O1: the six commands, one by one. -/
theorem decodeOfEncodeIsTheCommand : Obligations.DecodeOfEncodeIsTheCommand := fun i _ => decode_encode i

/-- Settles O2: with RSV = 0 the opcode is all that is left of the word, and the opcode map is the encoder's inverse. -/
theorem decodeGivesACommandOnlyForItsWord : Obligations.DecodeGivesACommandOnlyForItsWord := fun _ _ =>
  decode_eq_command_iff

/-- Settles O3: a table word is the encoding of its command; the two illegal words are evaluated. -/
theorem tableWordsDecodeAsTheTableSays : Obligations.TableWordsDecodeAsTheTableSays :=
  ⟨decode_encode .nop, decode_encode .conv, decode_encode .senc, decode_encode .sdec, decode_encode .eenc,
    decode_encode .edec, rfl, rfl⟩

/-- Settles O4: the illegal words by the decoder's two checks, the issue as an idle CMD write, the completion as the
engine's turn. -/
theorem illegalWordsAreTheOthersAndComplete : Obligations.IllegalWordsAreTheOthersAndComplete := by
  refine ⟨fun w => ⟨exists_decode_illegal_iff_ne_encode, exists_decode_illegal_iff_fields⟩, ?_, ?_⟩
  · intro s w hp hb he
    exact (step_writeReg_idle (r := .cmd) rfl hp hb he rfl :)
  · intro s w hp he hw hne
    obtain ⟨r, hd⟩ := exists_decode_illegal_iff_ne_encode.mpr hne
    exact step_engine_illegal hp he hw hd

end Sys2Proof.Claims

/-! SUPPORT. The proofs of the command engine statements (40_command_engine.md R66 to R73): how a command starts, what a busy
block still answers, what the engine's turn runs, and that every issued command completes. -/

namespace Sys2Proof.Machine

/-! ### How each command ends (R68, R130) -/

/-- The codes a command can end with (R130). -/
def ownCodes : Instr → List ErrCode
  | .nop => [.ok]
  | .conv => [.ok, .invalidRadix, .invalidDigit, .outputOverflow, .badLength]
  | .senc => [.ok, .valueOutOfRange]
  | .sdec => [.ok, .invalidDigit, .malformedValue]
  | .eenc => [.ok, .badLength]
  | .edec => [.ok, .malformedPayload, .badLength]

theorem ok_mem_ownCodes (i : Instr) : .ok ∈ ownCodes i := by
  cases i <;> exact List.mem_cons_self

/-- How a command ends, said once, with who can end so and with which codes: `exec_cases` with the two kept together. -/
inductive ExecKind (i : Instr) (s : State) : State → Prop where
  /-- A completion that writes no result. -/
  | plain (e : ErrCode) (p : Nat) (hi : i = .nop ∨ i = .senc ∨ i = .sdec) (he : e ∈ ownCodes i) :
      ExecKind i s (s.complete e p)
  /-- A successful SENC (R96). -/
  | safe (w : Word) (hi : i = .senc) : ExecKind i s ({ s with safe := w }.complete .ok 0)
  /-- A successful SDEC (R97). -/
  | value (w : Word) (hi : i = .sdec) : ExecKind i s ({ s with value := w }.complete .ok 0)
  /-- A failed CONV, EENC or EDEC. -/
  | failOut (e : ErrCode) (p : Nat) (hi : i = .conv ∨ i = .eenc ∨ i = .edec) (he : e ∈ ownCodes i) :
      ExecKind i s (s.failOut e p)
  /-- A successful CONV, EENC or EDEC. -/
  | succeedOut (o : List Byte) (hi : i = .conv ∨ i = .eenc ∨ i = .edec) : ExecKind i s (s.succeedOut o)

theorem EndsOut.execKind {i : Instr} {s t : State} {codes : List ErrCode} (h : EndsOut s codes t)
    (hi : i = .conv ∨ i = .eenc ∨ i = .edec) (hcodes : ownCodes i = .ok :: codes) : ExecKind i s t := by
  rcases h with ⟨e, p, he, -, -, rfl⟩ | ⟨o, -, rfl⟩
  · exact .failOut e p hi (by rw [hcodes]; exact List.mem_cons_of_mem _ he)
  · exact .succeedOut o hi

/-- No command faults or is refused. -/
theorem exec_next (i : Instr) (s : State) : ∃ t, exec i s = .next t := by
  obtain ⟨t, h, -⟩ := exec_cases i s
  exact ⟨t, h⟩

section

variable {i : Instr} {s t : State} (h : exec i s = .next t)

include h

theorem exec_kind : ExecKind i s t := by
  cases i with
  | nop =>
    cases h
    exact .plain .ok 0 (.inl rfl) (ok_mem_ownCodes .nop)
  | conv =>
    obtain ⟨u, hu, he⟩ := execConv_ends s
    cases hu.symm.trans h
    exact he.execKind (.inl rfl) rfl
  | senc =>
    rcases execSenc_cases s with ⟨-, hu⟩ | ⟨-, hu⟩
    · cases hu.symm.trans h
      exact .safe _ rfl
    · cases hu.symm.trans h
      exact .plain _ _ (.inr (.inl rfl)) (by decide)
  | sdec =>
    rcases execSdec_cases s with ⟨k, -, hu⟩ | ⟨-, k, -, hu⟩ | ⟨-, -, hu⟩
    · cases hu.symm.trans h
      exact .plain _ _ (.inr (.inr rfl)) (by decide)
    · cases hu.symm.trans h
      exact .plain _ _ (.inr (.inr rfl)) (by decide)
    · cases hu.symm.trans h
      exact .value _ rfl
  | eenc =>
    obtain ⟨u, hu, he⟩ := execEenc_ends s
    cases hu.symm.trans h
    exact he.execKind (.inr (.inl rfl)) rfl
  | edec =>
    obtain ⟨u, hu, he⟩ := execEdec_ends s
    cases hu.symm.trans h
    exact he.execKind (.inr (.inr rfl)) rfl

theorem exec_errCode_mem : t.errCode ∈ ownCodes i := by
  cases exec_kind h with
  | plain e p hi he => exact he
  | failOut e p hi he => exact he
  | _ => exact ok_mem_ownCodes i

/-- ERR_POS is 0 when a command succeeded (R68). -/
theorem exec_errPos_of_ok (hok : t.errCode = .ok) : t.errPos = 0 := by
  cases exec_kind h with
  | plain => exact if_pos hok
  | failOut => exact if_pos hok
  | _ => rfl

/-- Only a successful SDEC writes VALUE (R37, R97). -/
theorem exec_value_writer (hne : t.value ≠ s.value) : i = .sdec ∧ t.errCode = .ok := by
  cases exec_kind h with
  | value w hi => exact ⟨hi, rfl⟩
  | _ => exact absurd rfl hne

/-- Only a successful SENC writes SAFE (R37, R96). -/
theorem exec_safe_writer (hne : t.safe ≠ s.safe) : i = .senc ∧ t.errCode = .ok := by
  cases exec_kind h with
  | safe w hi => exact ⟨hi, rfl⟩
  | _ => exact absurd rfl hne

/-- Only CONV, EENC and EDEC take a draw. -/
theorem exec_draws (hi : ¬ (i = .conv ∨ i = .eenc ∨ i = .edec)) : t.draws = s.draws := by
  cases exec_kind h with
  | failOut e p hout => exact absurd hout hi
  | succeedOut o hout => exact absurd hout hi
  | _ => rfl

/-- An error of CONV, EENC or EDEC leaves no result byte (R68, R132). -/
theorem exec_outLen_of_error (hi : i = .conv ∨ i = .eenc ∨ i = .edec) (he : t.errCode ≠ .ok) : t.outLen = 0 := by
  cases exec_kind h with
  | failOut => rfl
  | plain e p hplain => rcases hi with rfl | rfl | rfl <;> simp at hplain
  | _ => exact absurd rfl he

theorem exec_done : t.done = true := (congrArg State.done (exec_frame h) :)

theorem exec_pend : t.pend = none := (congrArg State.pend (exec_frame h) :)

theorem exec_phase : t.phase = s.phase := (congrArg State.phase (exec_frame h) :)

theorem exec_inputs : t.inputs = s.inputs := (congrArg State.inputs (exec_frame h) :)

end

theorem State.busy_eq_false_of_pend {s : State} (h : s.pend = none) : s.busy = false := by
  rw [State.busy, h]
  rfl

/-! ### The engine's turn (R67) -/

/-- The engine's turn runs the command that is pending. -/
theorem step_engine_command {s : State} {w : Word} {i : Instr} (hp : s.phase = .ready) (he : s.nextInput = .engine)
    (hw : s.pend = some w) (hd : decode w = .command i) : step s = exec i s.turn := by
  rw [step_engine hp he hw, hd]

/-- The engine's turn completes what is pending, a command or an illegal word (R68, R71, R73). -/
theorem step_engine_completes {s : State} (hp : s.phase = .ready) (hb : s.busy = true) (he : s.nextInput = .engine) :
    ∃ t, step s = .next t ∧ t.busy = false ∧ t.done = true := by
  obtain ⟨w, hw⟩ := Option.isSome_iff_exists.mp hb
  cases hd : decode w with
  | command i =>
    obtain ⟨t, ht⟩ := exec_next i s.turn
    exact ⟨t, (step_engine_command hp he hw hd).trans ht, State.busy_eq_false_of_pend (exec_pend ht), exec_done ht⟩
  | illegal r => exact ⟨_, step_engine_illegal hp he hw hd, rfl, rfl⟩

/-- The engine's turn comes next, whether events follow it or not. -/
theorem engineFirst_next (l : List Input) : (engineFirst l).headD .engine = .engine ∧ (engineFirst l).tail = l := by
  cases l with
  | nil => exact ⟨rfl, rfl⟩
  | cons e t => exact ⟨rfl, rfl⟩

/-- A placed 32-bit word stands in PEND as it is. -/
theorem State.withFetchWord_pend (s : State) (w : Word) : (s.withFetchWord 32 w.toNat).pend = some w := by
  rw [State.withFetchWord, State.issue_pend, Nat.mod_eq_of_lt w.isLt, BitVec.ofNat_toNat, BitVec.setWidth_eq]

/-- The engine's turn after `withFetchWord` is before the events that were to come. -/
theorem State.withFetchWord_turn (s : State) (w : Word) :
    (s.withFetchWord 32 w.toNat).turn = { s.issue w with phase := .ready, response := none } := by
  obtain ⟨-, htail⟩ := engineFirst_next s.inputs
  have hw : BitVec.ofNat 32 (w.toNat % 2 ^ 32) = w := Option.some.inj (s.withFetchWord_pend w)
  rw [State.turn, State.withFetchWord, hw, htail]
  rfl

/-! ### Writes while busy (R69) and the write that issues (R66) -/

theorem State.unlessBusy_busy {s : State} (hb : s.busy = true) (effect : State) : s.unlessBusy effect = s.dropWrite := by
  rw [State.unlessBusy, if_pos hb]

/-- A write whose effect needs an idle block is dropped while busy. -/
theorem step_writeTarget_busy {s effect : State} {off : Offset} {d : BusData} {x : Target}
    (hl : locate s.cfg off d.size = some x) (hp : s.phase = .ready) (hb : s.busy = true)
    (he : s.nextInput = .write off d) (heffect : s.turn.writeTarget d x = s.turn.unlessBusy effect) :
    step s = .next (s.turn.dropWrite.answer .done) := by
  have hb' : s.turn.busy = true := hb
  rw [step_writeTarget hl hp he, heffect, State.unlessBusy_busy hb']

/-- A CTRL write with bit 31 clear is an ordinary write of its fields (R22, R150). -/
theorem State.writeReg_ctrl_fields (s : State) {w : Word} (h31 : w.getLsbD 31 = false) :
    s.writeReg w .ctrl = s.unlessBusy (s.writeCtrlFields w) :=
  if_neg (by rw [softResetBit, h31]; decide)

/-- A CTRL write with bit 31 set is a soft reset, busy or not (R150). -/
theorem step_softReset {s : State} {w : Word} (hp : s.phase = .ready) (h31 : w.getLsbD 31 = true)
    (he : s.nextInput = .write 0x004 (.word w)) : step s = .next (s.turn.toResetValues.answer .done) := by
  have hreset : s.turn.writeReg w .ctrl = s.turn.toResetValues := if_pos h31
  rw [step_writeReg (r := .ctrl) rfl hp he, hreset]

/-- The only write that makes an idle block busy is one to CMD, whose word it issues. -/
theorem WriteEffect.busy_starts {s t : State} {off : Offset} {d : BusData} (h : WriteEffect s off d t)
    (hidle : s.busy = false) (hbusy : t.busy = true) : ∃ w, off = 0x008 ∧ d = .word w ∧ t.pend = some w := by
  cases h with
  | issue w ho hd => exact ⟨w, ho, hd, rfl⟩
  | softReset => cases hbusy
  | _ => exact absurd (hidle.symm.trans hbusy) (by decide)

/-! ### Reads while busy (R70) -/

/-- A read while busy of a location whose value is then unspecified takes a draw of the access's width. -/
theorem step_readOpen {s : State} {off : Offset} {size : AccessSize} {x : Target}
    (hl : locate s.cfg off size = some x) (hp : s.phase = .ready) (hb : s.busy = true) (hopen : x.openWhileBusy = true)
    (he : s.nextInput = .read off size) :
    step s = .next ({ s.turn with draws := s.draws + 1 }.answer
      (.data (BusData.ofWord (Config.freeData s.draws) size))) := by
  have hdraw : (s.turn.busy && x.openWhileBusy) = true := Bool.and_eq_true_iff.mpr ⟨hb, hopen⟩
  rw [step_read hp he, State.busRead_located (s := s.turn) hl, if_pos hdraw]
  rfl

theorem State.busRead_busy (s : State) (off : Offset) (size : AccessSize) : (s.busRead off size).busy = s.busy :=
  (congrArg State.busy (s.busRead_frame off size) :)

/-! ### Progress (R71) -/

theorem State.busRead_phase (s : State) (off : Offset) (size : AccessSize) : (s.busRead off size).phase = s.phase :=
  (congrArg State.phase (s.busRead_frame off size) :)

theorem State.busRead_inputs (s : State) (off : Offset) (size : AccessSize) : (s.busRead off size).inputs = s.inputs := by
  obtain ⟨r, d, h, -⟩ := s.busRead_cases off size
  rw [h]

/-- A write moves neither the phase nor the events to come. -/
theorem WriteEffect.schedule_eq {s t : State} {off : Offset} {d : BusData} (h : WriteEffect s off d t) :
    t.phase = s.phase ∧ t.inputs = s.inputs := by
  cases h <;> exact ⟨rfl, rfl⟩

/-- A step uses up one event (R50). -/
theorem step_inputs {s t : State} (h : step s = .next t) : t.inputs = s.inputs.tail := by
  cases step_cases h with
  | read off size => exact s.turn.busRead_inputs off size
  | write off d =>
    obtain ⟨u, r, hu, hw⟩ := s.turn.busWrite_effect off d
    obtain ⟨-, hinputs⟩ := hu.schedule_eq
    rw [hw]
    exact hinputs
  | idle => rfl
  | command w i he hp hw hd t ht => exact exec_inputs ht
  | illegal => rfl
  | assertReset => rfl
  | releaseReset => exact s.turn.releaseReset_inputs
  | powerLoss => rfl

/-- Only a loss of power takes the block out of power (R142). -/
theorem step_keeps_power {s t : State} (h : step s = .next t) (hlive : s.phase ≠ .powerLost)
    (hpower : s.nextInput ≠ .powerLoss) : t.phase ≠ .powerLost := by
  cases step_cases h with
  | read off size =>
    rw [s.turn.busRead_phase]
    exact hlive
  | write off d =>
    obtain ⟨u, r, hu, hw⟩ := s.turn.busWrite_effect off d
    obtain ⟨hphase, -⟩ := hu.schedule_eq
    rw [hw, State.answer_phase, hphase]
    exact hlive
  | idle => exact hlive
  | command w i he hp hw hd t ht =>
    rw [exec_phase ht]
    exact hlive
  | illegal => exact hlive
  | assertReset => nofun
  | releaseReset =>
    cases hp : s.phase with
    | ready => simp [hp]
    | inReset => simp [hp]
    | powerLost => exact absurd hp hlive
  | powerLoss he => exact absurd he hpower

/-- With power, the engine's turn leaves the block idle: in reset PEND is held invalid (R149), and a ready block completes what
is pending. -/
theorem step_engine_leaves_idle {s t : State} (hi : s.Inv) (hlive : s.phase ≠ .powerLost) (he : s.nextInput = .engine)
    (h : step s = .next t) : t.busy = false := by
  by_cases hrun : s.phase = .ready ∧ s.busy = true
  · obtain ⟨hp, hb⟩ := hrun
    obtain ⟨u, hu, hidle, -⟩ := step_engine_completes hp hb he
    obtain rfl : u = t := Host.Outcome.next.inj (hu.symm.trans h)
    exact hidle
  · have hpend : s.pend = none := by
      cases hp : s.phase with
      | ready => exact Option.not_isSome_iff_eq_none.mp fun hb => hrun ⟨hp, hb⟩
      | inReset =>
        obtain ⟨-, -, -, -, -, -, -, -, -, -, -, -, hpend, -, -⟩ := hi.heldInReset hp
        exact hpend
      | powerLost => exact absurd hp hlive
    obtain rfl : s.turn = t := Host.Outcome.next.inj ((step_engine_idle he (.inr hpend)).symm.trans h)
    exact State.busy_eq_false_of_pend hpend

/-- A run over the events to come `l` and one step more ends idle: the events keep the power and the invariant, and the step
after the last of them is the engine's turn. -/
theorem run_inputs_leaves_idle {l : List Input} {s t : State} (hl : s.inputs = l) (hi : s.Inv)
    (hlive : s.phase ≠ .powerLost) (hpower : Input.powerLoss ∉ l)
    (h : Sys2Proof.core.run (l.length + 1) s = .next t) : t.busy = false := by
  induction l generalizing s with
  | nil =>
    rcases step_total s with ⟨u, hu⟩ | ⟨-, r, hr⟩
    · rw [core_run_next _ hu] at h
      obtain rfl : u = t := Host.Outcome.next.inj h
      exact step_engine_leaves_idle hi hlive (by rw [State.nextInput, hl]; rfl) hu
    · rw [core_run_refused _ hr] at h
      cases h
  | cons e l ih =>
    have hne : Input.powerLoss ≠ e := List.ne_of_not_mem_cons hpower
    have hrest : Input.powerLoss ∉ l := List.not_mem_of_not_mem_cons hpower
    have hnext : s.nextInput = e := by rw [State.nextInput, hl]; rfl
    rcases step_total s with ⟨u, hu⟩ | ⟨-, r, hr⟩
    · rw [core_run_next _ hu] at h
      have hinputs : u.inputs = l := by rw [step_inputs hu, hl]; rfl
      exact ih hinputs (step_inv hi hu) (step_keeps_power hu hlive (by rw [hnext]; exact Ne.symm hne)) hrest h
    · rw [core_run_refused _ hr] at h
      cases h

end Sys2Proof.Machine

namespace Sys2Proof.Claims

open Sys2Proof.Machine

/-- CTRL and STATUS read after a reset as they do in the reset state. -/
theorem flagWords_toResetValues (s : State) : s.toResetValues.ctrlWord = 0 ∧ s.toResetValues.statusWord = 0 := by
  change State.reset.ctrlWord = 0 ∧ State.reset.statusWord = 0
  exact ⟨rfl, rfl⟩

/-- A soft reset leaves what R41 and R150 list. -/
theorem resetTo_softReset {s : State} (hp : s.phase = .ready) :
    ResetTo s (s.turn.toResetValues.answer .done) .ready := by
  obtain ⟨hctrl, hstatus⟩ := flagWords_toResetValues s.turn
  exact ⟨rfl, rfl, hctrl, hstatus, rfl, rfl, rfl, rfl, rfl, rfl, rfl, rfl, rfl, fun _ => rfl, fun _ => rfl, rfl, hp, rfl⟩

/-! ### The statements -/

/-- Settles O8: an illegal word completes as O4 says, 0x101 has a reserved bit set, and the run from reset is evaluated. -/
theorem illegalCommandReportsCodeEight : Obligations.IllegalCommandReportsCodeEight := by
  obtain ⟨-, -, hcompletes⟩ := illegalWordsAreTheOthersAndComplete
  refine ⟨fun s w hp he hw hne => ?_, exists_decode_illegal_iff_ne_encode.mp ⟨.reservedBitsSet, rfl⟩, _, rfl, rfl⟩
  exact ⟨_, hcompletes s w hp he hw hne, rfl, rfl, rfl, rfl, rfl, rfl, rfl, rfl, rfl⟩

/-- Settles O41: the dropped writes are those behind `State.unlessBusy`; of the others, STATUS, the soft reset and the
read-only locations behave as they do while idle. -/
theorem writesWhileBusyAreDropped : Obligations.WritesWhileBusyAreDropped := by
  intro s hp hb
  obtain ⟨hreadOnly, hout⟩ := readOnlyWritesAreIgnored s hp
  refine ⟨fun off w hmem he => ?_, fun w h31 he => ?_, fun off d hle hlt ha he => ?_,
    fun w => statusWriteClearsDoneAndWerr s w hp, fun w h31 he => ?_, hreadOnly, hout⟩
  · simp only [List.mem_cons, List.not_mem_nil, or_false] at hmem
    rcases hmem with rfl | rfl | rfl | rfl | rfl | rfl
    · exact (step_writeTarget_busy (x := .reg .cmd) rfl hp hb he rfl :)
    · exact (step_writeTarget_busy (x := .reg .fromBase) rfl hp hb he rfl :)
    · exact (step_writeTarget_busy (x := .reg .toBase) rfl hp hb he rfl :)
    · exact (step_writeTarget_busy (x := .reg .inLen) rfl hp hb he rfl :)
    · exact (step_writeTarget_busy (x := .reg .value) rfl hp hb he rfl :)
    · exact (step_writeTarget_busy (x := .reg .safe) rfl hp hb he rfl :)
  · exact (step_writeTarget_busy (x := .reg .ctrl) rfl hp hb he (s.turn.writeReg_ctrl_fields h31) :)
  · have hl : locate s.cfg off d.size = some (.inBuf (off.toNat - 0x10000)) :=
      locate_inBuf_iff.mpr ⟨by omega, by omega, ha⟩
    exact (step_writeTarget_busy hl hp hb he rfl :)
  · exact ⟨_, step_softReset hp h31 he, resetTo_softReset hp, rfl⟩

/-- Settles O43: the locations of the first two clauses are those open while busy, the others are not. -/
theorem readsWhileBusyReturnADraw : Obligations.ReadsWhileBusyReturnADraw := by
  intro s hp hb
  refine ⟨fun off hmem he => ?_, fun off size hle hlt ha he => ?_, fun off w hrow he => ?_,
    fun off size hle hlt ha he => ?_⟩
  · simp only [List.mem_cons, List.not_mem_nil, or_false] at hmem
    rcases hmem with rfl | rfl | rfl | rfl
    · exact (step_readOpen (x := .reg .outLen) rfl hp hb rfl he :)
    · exact (step_readOpen (x := .reg .value) rfl hp hb rfl he :)
    · exact (step_readOpen (x := .reg .safe) rfl hp hb rfl he :)
    · exact (step_readOpen (x := .reg .errPos) rfl hp hb rfl he :)
  · have hl : locate s.cfg off size = some (.outBuf (off.toNat - 0x20000)) :=
      locate_outBuf_iff.mpr ⟨by omega, by omega, ha⟩
    exact step_readOpen hl hp hb rfl he
  · simp only [List.mem_cons, Prod.mk.injEq, List.not_mem_nil, or_false] at hrow
    rcases hrow with ⟨rfl, rfl⟩ | ⟨rfl, rfl⟩ | ⟨rfl, rfl⟩ | ⟨rfl, rfl⟩ | ⟨rfl, rfl⟩ | ⟨rfl, rfl⟩ | ⟨rfl, rfl⟩ |
      ⟨rfl, rfl⟩ | ⟨rfl, rfl⟩
    · exact step_readReg (r := .id) rfl hp (.inl rfl) he
    · exact step_readReg (r := .ctrl) rfl hp (.inl rfl) he
    · exact step_readReg (r := .cmd) rfl hp (.inl rfl) he
    · exact step_readReg (r := .status) rfl hp (.inl rfl) he
    · exact step_readReg (r := .fromBase) rfl hp (.inl rfl) he
    · exact step_readReg (r := .toBase) rfl hp (.inl rfl) he
    · exact step_readReg (r := .inLen) rfl hp (.inl rfl) he
    · exact step_readReg (r := .inCap) rfl hp (.inl rfl) he
    · exact step_readReg (r := .outCap) rfl hp (.inl rfl) he
  · have hl : locate s.cfg off size = some (.inBuf (off.toNat - 0x10000)) :=
      locate_inBuf_iff.mpr ⟨by omega, by omega, ha⟩
    exact step_readTarget hl hp (.inl rfl) he

/-- Settles O50: PEND becomes valid by a CMD write only; every other event keeps it or makes it invalid. -/
theorem onlyACmdWriteStartsACommand : Obligations.OnlyACmdWriteStartsACommand := by
  intro s t hidle h hbusy hpower
  have hchange : t.busy ≠ s.busy := by rw [hidle, hbusy]; decide
  cases step_cases h with
  | read off size => exact absurd (s.turn.busRead_busy off size) hchange
  | write off d he hp =>
    obtain ⟨u, r, hu, hw⟩ := s.turn.busWrite_effect off d
    rw [hw] at hbusy ⊢
    obtain ⟨w, rfl, rfl, hpend⟩ := hu.busy_starts hidle hbusy
    exact ⟨hp, w, he, hpend⟩
  | idle => exact absurd rfl hchange
  | command w i he hp hw hd t ht => exact absurd hbusy (State.not_busy_of_pend_none (exec_pend ht))
  | illegal => cases hbusy
  | assertReset => cases hbusy
  | releaseReset => exact absurd (congrArg Option.isSome s.turn.releaseReset_pend) hchange
  | powerLoss he => exact absurd he hpower

/-- Settles O59: the engine's turn completes, and it comes at the latest when the events are used up, by induction on them. -/
theorem everyIssuedCommandCompletes : Obligations.EveryIssuedCommandCompletes :=
  ⟨fun _ => step_engine_completes, fun _ _ => run_inputs_leaves_idle rfl⟩

/-- Settles O5: the state the command meets is `State.turn`. -/
theorem stepRunsThePendingCommand : Obligations.StepRunsThePendingCommand := fun _ _ _ => step_engine_command

/-- Settles O6: `withFetchWord` sets up an engine's turn with the word pending. -/
theorem placedWordIsTheNextCommandRun : Obligations.PlacedWordIsTheNextCommandRun := by
  intro s w i hd
  obtain ⟨hengine, -⟩ := engineFirst_next s.inputs
  have he : (s.withFetchWord 32 w.toNat).nextInput = .engine := hengine
  rw [step_engine_command rfl he (s.withFetchWord_pend w) hd, s.withFetchWord_turn]
  rfl

/-- Settles O7: NOP is a plain completion, and the run from reset is evaluated. -/
theorem nopCompletesAndChangesNothingElse : Obligations.NopCompletesAndChangesNothingElse :=
  ⟨decode_encode .nop, fun s => ⟨rfl, Bool.and_true s.irqEn⟩, _, rfl, rfl⟩

/-- Settles O29: the frame of a completion, and command by command who writes which result and with which code. -/
theorem everyCommandCompletesAndKeepsItsFrame : Obligations.EveryCommandCompletesAndKeepsItsFrame := by
  intro i s
  obtain ⟨t, h⟩ := exec_next i s
  refine ⟨t, h, exec_frame h, exec_errPos_of_ok h, exec_value_writer h, exec_safe_writer h, fun hi => ?_,
    exec_outLen_of_error h, ?_⟩
  · have hkeeps : ¬ (i = .conv ∨ i = .eenc ∨ i = .edec) := by rcases hi with rfl | rfl | rfl <;> decide
    obtain ⟨hlen, hbuf⟩ := exec_keeps_out h hkeeps
    exact ⟨hlen, hbuf, exec_draws h hkeeps⟩
  · have hcode := exec_errCode_mem h
    cases i with
    | nop => exact List.mem_singleton.mp hcode
    | conv => exact hcode
    | senc => exact hcode
    | sdec => exact hcode
    | eenc => exact hcode
    | edec => exact hcode

/-- Settles O40: a CMD write while idle is not dropped, and DONE = 0 keeps IRQ low. -/
theorem cmdWriteIssuesTheCommand : Obligations.CmdWriteIssuesTheCommand := by
  intro s w hp hb he
  exact ⟨_, step_writeReg_idle (r := .cmd) rfl hp hb he rfl, rfl, rfl, rfl, Bool.and_false s.irqEn⟩

end Sys2Proof.Claims

/-! SUPPORT. The proofs of the CONV statements (41_radix_converter.md R75 to R81): Horner's method and the positional sum,
the minimal digit sequence, CONV check by check, and the two laws of a successful conversion. -/

namespace Sys2Proof.Machine

/-! ### The input bytes and their digit check (R77, R79) -/

theorem State.inputBytes_getElem (s : State) {i : Nat} (h : i < s.inputBytes.length) : s.inputBytes[i] = s.inByte i :=
  Memory.bytes_getElem s.inBuf h

theorem State.forall_mem_inputBytes {s : State} {p : Byte → Prop} :
    (∀ x ∈ s.inputBytes, p x) ↔ ∀ i < s.inLen.toNat, p (s.inByte i) := by
  simp [State.inputBytes, Memory.bytes, State.inByte]

/-- R77's check over the bytes IN holds. -/
theorem firstIllegalDigit_inputBytes {s : State} {base i : Nat} (hi : i < s.inLen.toNat)
    (hbad : base ≤ (s.inByte i).toNat) (hbefore : ∀ j < i, (s.inByte j).toNat < base) :
    firstIllegalDigit base s.inputBytes = some i := by
  rw [← s.inputBytes_length] at hi
  refine firstIllegalDigit_eq_some.mpr ⟨hi, ?_, fun j hj => ?_⟩
  · rwa [s.inputBytes_getElem]
  · rw [s.inputBytes_getElem]
    exact hbefore j hj

/-! ### CONV, check by check (R79) -/

/-- The four checks of CONV that come before its conversion (R79). -/
structure State.ConvAccepts (s : State) : Prop where
  inLen_le : s.inLen.toNat ≤ s.cfg.inCap
  fromBase_legal : legalRadix s.fromBase.toNat = true
  toBase_legal : legalRadix s.toBase.toNat = true
  digits_lt : ∀ x ∈ s.inputBytes, x.toNat < s.fromBase.toNat

/-- The digit sequence `rep_T(val_F(d))` that CONV computes (R79). -/
def State.convResult (s : State) : List Byte :=
  minimalDigits s.toBase.toNat (digitsValue s.fromBase.toNat s.inputBytes)

theorem execConv_badLength {s : State} (hn : s.cfg.inCap < s.inLen.toNat) :
    execConv s = .next (s.failOut .badLength 0) := by
  rw [execConv, if_pos (s.badLength_iff.mpr hn)]

theorem execConv_fromBase_illegal {s : State} (hn : s.inLen.toNat ≤ s.cfg.inCap)
    (hf : ¬ legalRadix s.fromBase.toNat = true) : execConv s = .next (s.failOut .invalidRadix 0) := by
  simp [execConv, s.badLength_eq_false_iff.mpr hn, hf]

theorem execConv_toBase_illegal {s : State} (hn : s.inLen.toNat ≤ s.cfg.inCap)
    (hf : legalRadix s.fromBase.toNat = true) (ht : ¬ legalRadix s.toBase.toNat = true) :
    execConv s = .next (s.failOut .invalidRadix 1) := by
  simp [execConv, s.badLength_eq_false_iff.mpr hn, hf, ht]

theorem execConv_digit_illegal {s : State} {i : Nat} (hn : s.inLen.toNat ≤ s.cfg.inCap)
    (hf : legalRadix s.fromBase.toNat = true) (ht : legalRadix s.toBase.toNat = true)
    (hd : firstIllegalDigit s.fromBase.toNat s.inputBytes = some i) :
    execConv s = .next (s.failOut .invalidDigit i) := by
  simp [execConv, s.badLength_eq_false_iff.mpr hn, hf, ht, hd]

theorem execConv_overflow {s : State} (ha : s.ConvAccepts) (hl : s.cfg.outCap < s.convResult.length) :
    execConv s = .next (s.failOut .outputOverflow 0) := by
  rw [execConv_eq ha.inLen_le ha.fromBase_legal ha.toBase_legal ha.digits_lt]
  exact congrArg _ (if_pos hl)

theorem execConv_fits {s : State} (ha : s.ConvAccepts) (hl : s.convResult.length ≤ s.cfg.outCap) :
    execConv s = .next (s.succeedOut s.convResult) := by
  rw [execConv_eq ha.inLen_le ha.fromBase_legal ha.toBase_legal ha.digits_lt]
  exact congrArg _ (if_neg (Nat.not_lt.mpr hl))

/-- What a CONV that answers `t` can have been: stopped by one of its four checks, too long a result, or a success
(R79). -/
inductive ConvEnd (s : State) : State → Prop where
  | rejected (e : ErrCode) (p : Nat) (hok : e ≠ .ok) (hover : e ≠ .outputOverflow) : ConvEnd s (s.failOut e p)
  | overflow (ha : s.ConvAccepts) (hl : s.cfg.outCap < s.convResult.length) : ConvEnd s (s.failOut .outputOverflow 0)
  | success (ha : s.ConvAccepts) (hl : s.convResult.length ≤ s.cfg.outCap) : ConvEnd s (s.succeedOut s.convResult)

theorem exec_conv_unique {s t u : State} (h : exec .conv s = .next t) (hu : execConv s = .next u) : t = u :=
  Host.Outcome.next.inj (h.symm.trans hu)

theorem exec_conv_end {s t : State} (h : exec .conv s = .next t) : ConvEnd s t := by
  rcases Nat.lt_or_ge s.cfg.inCap s.inLen.toNat with hn | hn
  · rw [exec_conv_unique h (execConv_badLength hn)]
    exact .rejected _ _ (by decide) (by decide)
  by_cases hf : legalRadix s.fromBase.toNat = true
  case neg =>
    rw [exec_conv_unique h (execConv_fromBase_illegal hn hf)]
    exact .rejected _ _ (by decide) (by decide)
  by_cases ht : legalRadix s.toBase.toNat = true
  case neg =>
    rw [exec_conv_unique h (execConv_toBase_illegal hn hf ht)]
    exact .rejected _ _ (by decide) (by decide)
  cases hd : firstIllegalDigit s.fromBase.toNat s.inputBytes with
  | some i =>
    rw [exec_conv_unique h (execConv_digit_illegal hn hf ht hd)]
    exact .rejected _ _ (by decide) (by decide)
  | none =>
    have ha : s.ConvAccepts := ⟨hn, hf, ht, firstIllegalDigit_eq_none.mp hd⟩
    rcases Nat.lt_or_ge s.cfg.outCap s.convResult.length with hl | hl
    · rw [exec_conv_unique h (execConv_overflow ha hl)]
      exact .overflow ha hl
    · rw [exec_conv_unique h (execConv_fits ha hl)]
      exact .success ha hl

/-- Only a success completes with code 0 (R68, R79). -/
theorem exec_conv_ok {s t : State} (h : exec .conv s = .next t) (hok : t.errCode = .ok) :
    s.ConvAccepts ∧ s.convResult.length ≤ s.cfg.outCap ∧ t = s.succeedOut s.convResult := by
  cases exec_conv_end h with
  | rejected e p hne hover => exact absurd hok hne
  | overflow ha hl => cases hok
  | success ha hl => exact ⟨ha, hl, rfl⟩

/-! ### What CONV computes (R78, R81) -/

section
variable {s : State} (ha : s.ConvAccepts)
include ha

theorem State.ConvAccepts.convResult_minimal : MinimalFor s.toBase.toNat s.convResult := by
  obtain ⟨h2, h256⟩ := legalRadix_iff.mp ha.toBase_legal
  exact minimalDigits_minimal h2 h256

theorem State.ConvAccepts.digitsValue_convResult :
    digitsValue s.toBase.toNat s.convResult = digitsValue s.fromBase.toNat s.inputBytes := by
  obtain ⟨h2, h256⟩ := legalRadix_iff.mp ha.toBase_legal
  exact digitsValue_minimalDigits h2 h256

/-- "Longer than `k` digits" as a bound on the value (R78). -/
theorem State.ConvAccepts.convResult_length_le_iff (k : Nat) :
    s.convResult.length ≤ k ↔ digitsValue s.fromBase.toNat s.inputBytes < s.toBase.toNat ^ k := by
  obtain ⟨h2, -⟩ := legalRadix_iff.mp ha.toBase_legal
  rw [ha.convResult_minimal.length_le_iff h2, ha.digitsValue_convResult]

/-- One byte is worth at most two digits of a base of at least 16 (R81, law 4). -/
theorem State.ConvAccepts.convResult_length_le_double (h16 : 16 ≤ s.toBase.toNat) :
    s.convResult.length ≤ 2 * s.inLen.toNat := by
  obtain ⟨-, h256⟩ := legalRadix_iff.mp ha.fromBase_legal
  have hval := digitsValue_lt ha.digits_lt
  rw [s.inputBytes_length] at hval
  rw [ha.convResult_length_le_iff]
  calc digitsValue s.fromBase.toNat s.inputBytes
      < s.fromBase.toNat ^ s.inLen.toNat := hval
    _ ≤ (16 ^ 2) ^ s.inLen.toNat := Nat.pow_le_pow_left h256 _
    _ = 16 ^ (2 * s.inLen.toNat) := (pow_mul 16 2 _).symm
    _ ≤ s.toBase.toNat ^ (2 * s.inLen.toNat) := Nat.pow_le_pow_left h16 _

/-- So a base of at least 16 never fills more than OUT, which is twice IN (R33, R81, law 4). -/
theorem State.ConvAccepts.convResult_fits (h16 : 16 ≤ s.toBase.toNat) : s.convResult.length ≤ s.cfg.outCap :=
  calc s.convResult.length ≤ 2 * s.inLen.toNat := ha.convResult_length_le_double h16
    _ ≤ 2 * s.cfg.inCap := Nat.mul_le_mul_left 2 ha.inLen_le
    _ = s.cfg.outCap := s.cfg.outCap_eq.symm

variable {s' : State}

/-- A result is a legal input in the base it was converted to. -/
theorem State.ConvAccepts.back (hlen : s'.inLen.toNat ≤ s.cfg.inCap) (hcfg : s'.cfg = s.cfg)
    (hfrom : s'.fromBase = s.toBase) (hto : s'.toBase = s.fromBase) (hin : s'.inputBytes = s.convResult) :
    s'.ConvAccepts where
  inLen_le := hcfg ▸ hlen
  fromBase_legal := hfrom ▸ ha.toBase_legal
  toBase_legal := hto ▸ ha.fromBase_legal
  digits_lt := by
    rw [hin, hfrom]
    exact ha.convResult_minimal.1

/-- The result converted back is the minimal sequence of the first input's value: that input without its leading zeros
(R81, law 3). -/
theorem State.ConvAccepts.convResult_back (hfrom : s'.fromBase = s.toBase) (hto : s'.toBase = s.fromBase)
    (hin : s'.inputBytes = s.convResult) : s'.convResult = s.inputBytes.dropWhile (· == 0#8) := by
  obtain ⟨h2, h256⟩ := legalRadix_iff.mp ha.fromBase_legal
  have hmin := minimalFor_dropWhile ha.digits_lt
  rw [State.convResult, hto, hfrom, hin, ha.digitsValue_convResult, ← digitsValue_dropWhile,
    ← hmin.eq_minimalDigits h2 h256]

end

end Sys2Proof.Machine

namespace Sys2Proof.Claims

open Sys2Proof.Machine

/-! ### The rules' formulas and the model's functions -/

theorem input_eq_inputBytes (s : State) : input s = s.inputBytes := rfl

theorem output_eq_outputBytes (s : State) : output s = s.outputBytes := rfl

theorem legal_iff {r : Nat} : Legal r ↔ legalRadix r = true := legalRadix_iff.symm

/-- The sum's first term is the first digit's; the others are the sum over the rest (R75). -/
theorem positional_cons (base : Nat) (x : Byte) (d : List Byte) :
    positional base (x :: d) = x.toNat * base ^ d.length + positional base d := by
  have hexp (i : Nat) : d.length + 1 - 1 - (i + 1) = d.length - 1 - i := by omega
  rw [positional, List.length_cons, List.range_succ_eq_map, List.map_cons, List.sum_cons, List.map_map]
  refine congrArg₂ (· + ·) rfl (congrArg List.sum (List.map_congr_left fun i _ => ?_))
  simp only [Function.comp_apply, List.getD_cons_succ, Nat.succ_eq_add_one, hexp]

theorem digitsValue_eq_positional (base : Nat) (d : List Byte) : digitsValue base d = positional base d := by
  induction d with
  | nil => rfl
  | cons x d ih => rw [digitsValue_cons, positional_cons, ih]

/-- A failed CONV, EENC or EDEC changes what R68 says. -/
theorem failedOut_failOut (s : State) {e : ErrCode} (he : e ≠ .ok) (p : Nat) : FailedOut s (s.failOut e p) e p := by
  refine ⟨?_, fun _ => rfl⟩
  rw [State.failOut, State.complete, if_neg he]
  rfl

/-- A successful CONV, EENC or EDEC whose result fits writes it, and draws the rest of OUT (R35). -/
theorem wroteOut_succeedOut {s : State} {o : List Byte} (h : o.length ≤ s.cfg.outCap) :
    WroteOut s (s.succeedOut o) o := by
  refine ⟨rfl, State.outputBytes_succeedOut h, outLen_toNat h, fun i hi => ?_⟩
  rw [State.outByte, State.succeedOut_outBuf, Memory.read_holding, List.getElem?_eq_none hi]
  rfl

/-! ### The statements -/

/-- Settles O9: Horner's fold and the sum split off the first digit alike. -/
theorem hornerGivesThePositionalValue : Obligations.HornerGivesThePositionalValue := digitsValue_eq_positional

/-- Settles O10: the loop's result is minimal and has its value, and a minimal sequence is fixed by its value. -/
theorem minimalDigitSequenceIsTheOneOfItsValue : Obligations.MinimalDigitSequenceIsTheOneOfItsValue := by
  intro base v ⟨h2, h256⟩
  have hmin := minimalDigits_minimal (v := v) h2 h256
  have hval := digitsValue_minimalDigits (v := v) h2 h256
  have hlen := hmin.length_le_iff h2
  rw [hval] at hlen
  refine ⟨rfl, fun _ r => ?_, fun _ => ⟨(hlen _).mp le_rfl, fun k => (hlen k).mpr⟩⟩
  rw [← digitsValue_eq_positional]
  constructor
  · rintro rfl
    exact ⟨hmin.2, hmin.1, hval⟩
  · rintro ⟨hhead, hdigits, rfl⟩
    exact MinimalFor.eq_minimalDigits h2 h256 ⟨hdigits, hhead⟩

/-- Settles O11: each clause is the answer of the one check it names; behind the checks the length of the result decides,
and it is bounded through the input's value. -/
theorem convFollowsItsRule : Obligations.ConvFollowsItsRule := by
  refine ⟨decode_encode .conv, fun s => ?_⟩
  obtain ⟨t, h⟩ := exec_next .conv s
  refine ⟨t, h, fun hn => ?_, fun hn hf => ?_, fun hn hf ht => ?_,
    fun hn hf ht => ⟨fun i hi hbad hbefore => ?_, fun hd => ?_⟩⟩
  · rw [exec_conv_unique h (execConv_badLength hn)]
    exact failedOut_failOut s (by decide) 0
  · rw [legal_iff] at hf
    rw [exec_conv_unique h (execConv_fromBase_illegal hn hf)]
    exact failedOut_failOut s (by decide) 0
  · rw [legal_iff] at hf ht
    rw [exec_conv_unique h (execConv_toBase_illegal hn hf ht)]
    exact failedOut_failOut s (by decide) 1
  · rw [legal_iff] at hf ht
    rw [exec_conv_unique h (execConv_digit_illegal hn hf ht (firstIllegalDigit_inputBytes hi hbad hbefore))]
    exact failedOut_failOut s (by decide) i
  · have ha : s.ConvAccepts := ⟨hn, legal_iff.mp hf, legal_iff.mp ht, State.forall_mem_inputBytes.mpr hd⟩
    have hfits := ha.convResult_length_le_iff s.cfg.outCap
    rw [input_eq_inputBytes, ← digitsValue_eq_positional, ← digitsValue_eq_positional]
    refine ⟨fun hv => ?_, fun hv => ?_⟩
    · rw [exec_conv_unique h (execConv_overflow ha (Nat.lt_of_not_le fun hl => (hfits.mp hl).not_ge hv))]
      exact failedOut_failOut s (by decide) 0
    · have hl := hfits.mpr hv
      obtain ⟨hdigits, hhead⟩ := ha.convResult_minimal
      rw [exec_conv_unique h (execConv_fits ha hl), output_eq_outputBytes, State.outputBytes_succeedOut hl]
      exact ⟨wroteOut_succeedOut hl, hhead, hdigits, ha.digitsValue_convResult⟩

/-- Settles O12: the result converted back is the input without its leading zeros, which is no longer than IN. -/
theorem convThereAndBackDropsLeadingZeros : Obligations.ConvThereAndBackDropsLeadingZeros := by
  intro s t s' h hok hcfg hfrom hto _ hlen hin
  obtain ⟨ha, hl, rfl⟩ := exec_conv_ok h hok
  rw [input_eq_inputBytes, output_eq_outputBytes, State.outputBytes_succeedOut hl] at hin
  have hback := ha.convResult_back hfrom hto hin
  have hl' : s'.convResult.length ≤ s'.cfg.outCap := by
    have hdrop : s'.convResult.length ≤ s.inputBytes.length := hback ▸ List.length_dropWhile_le _ _
    have hn := ha.inLen_le
    rw [s.inputBytes_length] at hdrop
    rw [hcfg, Config.outCap_eq]
    omega
  refine ⟨_, execConv_fits (ha.back hlen hcfg hfrom hto hin) hl', rfl, ?_⟩
  rw [output_eq_outputBytes, State.outputBytes_succeedOut hl', hback]
  rfl

/-- Settles O13: the result is at most twice as long as the input, so it fits into OUT. -/
theorem convToSixteenOrMoreNeverOverflows : Obligations.ConvToSixteenOrMoreNeverOverflows := by
  intro s t h h16
  cases exec_conv_end h with
  | rejected e p hok hover => exact ⟨hover, fun he => absurd he hok⟩
  | overflow ha hl => exact absurd (ha.convResult_fits h16) (Nat.not_le.mpr hl)
  | success ha hl =>
    refine ⟨by simp, fun _ => ?_⟩
    rw [State.succeedOut_outLen, outLen_toNat hl]
    exact ha.convResult_length_le_double h16

end Sys2Proof.Claims

/-! SUPPORT. The proofs of the safe re-mapper statements (42_safe_remapper.md R90 to R99): SENC and SDEC outcome by outcome,
that each undoes the other, the forbidden bytes, the wire order, and the agreement with CONV. -/

namespace Sys2Proof.Machine

/-! ### SENC and SDEC, outcome by outcome (R96, R97) -/

theorem execSenc_encodable {s : State} (h : s.value.toNat < s.variant.radix ^ 4) :
    execSenc s = .next ({ s with safe := safeEncode s.variant.radix s.value.toNat }.complete .ok 0) := by
  rw [execSenc, if_neg (Nat.not_le.mpr h)]

theorem execSenc_outOfRange {s : State} (h : s.variant.radix ^ 4 ≤ s.value.toNat) :
    execSenc s = .next (s.complete .valueOutOfRange 0) := by
  rw [execSenc, if_pos h]

/-- Only an encodable value completes with code 0 (R68, R96). -/
theorem exec_senc_encodable_of_ok {s t : State} (h : exec .senc s = .next t) (hok : t.errCode = .ok) :
    s.value.toNat < s.variant.radix ^ 4 := by
  refine Nat.lt_of_not_le fun hv => ?_
  cases h.symm.trans (execSenc_outOfRange hv)
  cases hok

theorem exec_senc_safe {s t : State} (h : exec .senc s = .next t) (hv : s.value.toNat < s.variant.radix ^ 4) :
    t.safe = safeEncode s.variant.radix s.value.toNat := by
  cases h.symm.trans (execSenc_encodable hv)
  rfl

/-- What SDEC accepts (R94, R95): each of the four bytes lies in [1, R]. -/
def WellFormedSafe (v : Variant) (w : Word) : Prop := ∀ k < 4, safeByte w k ≠ 0 ∧ (safeByte w k).toNat ≤ v.radix

theorem WellFormedSafe.decode_lt {v : Variant} {w : Word} (hw : WellFormedSafe v w) :
    safeDecode v.radix w < v.radix ^ 4 := by
  refine safeDecode_lt fun k hk => ?_
  obtain ⟨-, hle⟩ := hw k hk
  have hpos := v.radix_pos
  unfold safeDigit
  omega

/-- VALUE holds the value of a safe length that SDEC accepts (R91). -/
theorem WellFormedSafe.value_toNat {v : Variant} {w : Word} (hw : WellFormedSafe v w) :
    (BitVec.ofNat 32 (safeDecode v.radix w)).toNat = safeDecode v.radix w := by
  rw [BitVec.toNat_ofNat, Nat.mod_eq_of_lt (hw.decode_lt.trans v.radix_pow_lt)]

theorem wellFormedSafe_safeEncode (v : Variant) (n : Nat) : WellFormedSafe v (safeEncode v.radix n) := by
  intro k hk
  obtain ⟨hpos, hle⟩ := safeByte_safeEncode v n hk
  refine ⟨fun h0 => ?_, hle⟩
  rw [h0] at hpos
  exact absurd hpos (by decide)

theorem execSdec_zeroByte {s : State} {k : Nat} (hk : k < 4) (h0 : safeByte s.safe k = 0)
    (hbefore : ∀ j < k, safeByte s.safe j ≠ 0) : execSdec s = .next (s.complete .malformedValue k) := by
  have hfirst : firstSafeByte s.safe (fun b => b == 0) = some k :=
    firstSafeByte_eq_some.mpr ⟨hk, beq_iff_eq.mpr h0, fun j hj => beq_eq_false_iff_ne.mpr (hbefore j hj)⟩
  rw [execSdec, hfirst]

theorem firstSafeByte_zero_eq_none {w : Word} (hw : ∀ k < 4, safeByte w k ≠ 0) :
    firstSafeByte w (fun b => b == 0) = none :=
  firstSafeByte_eq_none.mpr fun k hk => beq_eq_false_iff_ne.mpr (hw k hk)

theorem execSdec_largeByte {s : State} {k : Nat} (hne : ∀ k < 4, safeByte s.safe k ≠ 0) (hk : k < 4)
    (hbad : s.variant.radix ≤ safeDigit s.safe k) (hbefore : ∀ j < k, safeDigit s.safe j < s.variant.radix) :
    execSdec s = .next (s.complete .invalidDigit k) := by
  have hfirst : firstSafeByte s.safe (fun b => decide (s.variant.radix ≤ b.toNat - 1)) = some k :=
    firstSafeByte_eq_some.mpr
      ⟨hk, decide_eq_true hbad, fun j hj => decide_eq_false (Nat.not_le.mpr (hbefore j hj))⟩
  rw [execSdec, firstSafeByte_zero_eq_none hne, hfirst]

theorem execSdec_wellFormed {s : State} (hw : WellFormedSafe s.variant s.safe) :
    execSdec s =
      .next ({ s with value := BitVec.ofNat 32 (safeDecode s.variant.radix s.safe) }.complete .ok 0) := by
  have hlarge : firstSafeByte s.safe (fun b => decide (s.variant.radix ≤ b.toNat - 1)) = none := by
    refine firstSafeByte_eq_none.mpr fun k hk => decide_eq_false ?_
    obtain ⟨-, hle⟩ := hw k hk
    have hpos := s.variant.radix_pos
    omega
  rw [execSdec, firstSafeByte_zero_eq_none fun k hk => (hw k hk).1, hlarge]

/-! ### CONV of a value's four big-endian bytes to base R (R98, law 5) -/

/-- Every byte is a digit of base 256, and IN holds at least four of them (R4). -/
theorem State.convAccepts_fourBytes {c : State} {v : Variant} (hlen : c.inLen = 4) (hfrom : c.fromBase = 256)
    (hto : c.toBase.toNat = v.radix) : c.ConvAccepts where
  inLen_le := by
    rw [hlen]
    exact c.cfg.four_le_inCap
  fromBase_legal := by rw [hfrom]; rfl
  toBase_legal := by rw [hto]; cases v <;> rfl
  digits_lt := fun x _ => by
    rw [hfrom]
    exact x.isLt

section
variable {c : State} {w : Word} (hlen : c.inLen = 4) (hin : ∀ k < 4, c.inByte k = w.extractLsb' (24 - 8 * k) 8)
include hlen hin

theorem State.inputBytes_bigEndian :
    c.inputBytes = [w.extractLsb' 24 8, w.extractLsb' 16 8, w.extractLsb' 8 8, w.extractLsb' 0 8] := by
  have hbytes : c.inputBytes = [c.inByte 0, c.inByte 1, c.inByte 2, c.inByte 3] := by
    rw [State.inputBytes, hlen]
    rfl
  rw [hbytes, hin 0 (by decide), hin 1 (by decide), hin 2 (by decide), hin 3 (by decide)]

variable {v : Variant} (hfrom : c.fromBase = 256) (hto : c.toBase.toNat = v.radix)
include hfrom hto

theorem State.convResult_bigEndian : c.convResult = minimalDigits v.radix w.toNat := by
  rw [State.convResult, hto, hfrom, State.inputBytes_bigEndian hlen hin]
  exact congrArg _ (digitsValue_bytes w)

theorem execConv_bigEndian :
    (minimalDigits v.radix w.toNat).length ≤ c.cfg.outCap ∧
      execConv c = .next (c.succeedOut (minimalDigits v.radix w.toNat)) := by
  have ha := State.convAccepts_fourBytes hlen hfrom hto
  have h16 : 16 ≤ c.toBase.toNat := hto ▸ (by decide : 16 ≤ 254).trans v.le_radix
  have hfits := ha.convResult_fits h16
  have hconv := execConv_fits ha hfits
  rw [State.convResult_bigEndian hlen hin hfrom hto] at hfits hconv
  exact ⟨hfits, hconv⟩

end

end Sys2Proof.Machine

namespace Sys2Proof.Claims

open Sys2Proof.Machine

/-! ### The rules' formulas and the model's functions -/

theorem radixOf_eq_radix (v : Variant) : radixOf v = v.radix := by cases v <;> rfl

theorem lane_eq_safeByte (w : Word) (k : Nat) : lane w k = (safeByte w k).toNat := rfl

theorem lane_eq_zero_iff {w : Word} {k : Nat} : lane w k = 0 ↔ safeByte w k = 0 :=
  (BitVec.toNat_eq (x := safeByte w k) (y := 0)).symm

theorem wireOrder_eq_safeWireValue (w : Word) : wireOrder w = safeWireValue w := rfl

/-- A completion with an error writes what R68 says. -/
theorem complete_eq_completed (s : State) {e : ErrCode} (he : e ≠ .ok) (p : Nat) : s.complete e p = completed s e p := by
  rw [State.complete, if_neg he]
  rfl

theorem wellFormedSafe_of_lanes {v : Variant} {w : Word} (hne : ∀ k < 4, lane w k ≠ 0)
    (hle : ∀ k < 4, lane w k ≤ v.radix) : WellFormedSafe v w :=
  fun k hk => ⟨fun h0 => hne k hk (lane_eq_zero_iff.mpr h0), hle k hk⟩

/-- The decoded value as R94's sum. -/
theorem safeDecode_eq_sum (r : Nat) (w : Word) :
    safeDecode r w = ((List.range 4).map fun k => (lane w k - 1) * r ^ (3 - k)).sum := by
  simp [List.range_succ, safeDecode, safeDigit, lane_eq_safeByte, Nat.add_assoc]

/-! ### The statements -/

/-- Settles O14: the two sides of R^4 are SENC's two outcomes. -/
theorem sencFollowsItsRule : Obligations.SencFollowsItsRule := by
  refine ⟨decode_encode .senc, fun s hv => ?_, fun s hv => ?_, rfl, rfl⟩
  · rw [radixOf_eq_radix] at hv ⊢
    refine ⟨_, execSenc_encodable hv, rfl, fun k hk => ?_⟩
    rw [State.complete_safe, lane_eq_safeByte, safeByte_of_safeEncode hk, encodedByte_toNat]
  · rw [radixOf_eq_radix] at hv
    rw [← complete_eq_completed s (by decide)]
    exact execSenc_outOfRange hv

/-- Settles O15: each clause is the answer of the one check it names, and a safe length that passes both is well formed. -/
theorem sdecFollowsItsRule : Obligations.SdecFollowsItsRule := by
  refine ⟨decode_encode .sdec, fun s => ⟨fun k hk h0 hbefore => ?_, fun hne => ⟨fun k hk hbad hbefore => ?_, fun hlt => ?_⟩⟩⟩
  · rw [← complete_eq_completed s (by decide)]
    exact execSdec_zeroByte hk (lane_eq_zero_iff.mp h0) fun j hj => mt lane_eq_zero_iff.mpr (hbefore j hj)
  · rw [radixOf_eq_radix] at hbad hbefore
    rw [← complete_eq_completed s (by decide)]
    exact execSdec_largeByte (fun j hj => mt lane_eq_zero_iff.mpr (hne j hj)) hk hbad hbefore
  · rw [radixOf_eq_radix] at hlt ⊢
    have hw : WellFormedSafe s.variant s.safe :=
      wellFormedSafe_of_lanes hne fun k hk => Nat.le_of_pred_lt (hlt k hk)
    refine ⟨_, execSdec_wellFormed hw, rfl, ?_⟩
    rw [State.complete_value, hw.value_toNat, safeDecode_eq_sum]

/-- Settles O16: what SENC writes is well formed, and it decodes to the value. -/
theorem sencThenSdecReturnsTheValue : Obligations.SencThenSdecReturnsTheValue := by
  intro s t s' hv h hsafe hvar
  rw [radixOf_eq_radix] at hv
  rw [exec_senc_safe h hv] at hsafe
  have hw : WellFormedSafe s'.variant s'.safe := by
    rw [hsafe, hvar]
    exact wellFormedSafe_safeEncode s.variant s.value.toNat
  refine ⟨_, execSdec_wellFormed hw, rfl, ?_⟩
  rw [State.complete_value, hsafe, hvar, safeDecode_safeEncode s.variant hv, BitVec.ofNat_toNat, BitVec.setWidth_eq]

/-- Settles O17: a well-formed safe length decodes below R^4, and the value encodes to it. -/
theorem sdecThenSencReturnsTheSafeLength : Obligations.SdecThenSencReturnsTheSafeLength := by
  intro s t s' hbytes h hvalue hvar
  rw [radixOf_eq_radix] at hbytes
  have hw : WellFormedSafe s.variant s.safe :=
    wellFormedSafe_of_lanes (fun k hk => Nat.ne_of_gt (hbytes k hk).1) fun k hk => (hbytes k hk).2
  cases h.symm.trans (execSdec_wellFormed hw)
  have hdecoded : s'.value.toNat = safeDecode s.variant.radix s.safe := by
    rw [hvalue, State.complete_value, hw.value_toNat]
  refine ⟨_, execSenc_encodable (by rw [hdecoded, hvar]; exact hw.decode_lt), rfl, ?_⟩
  rw [State.complete_safe, hdecoded, hvar, safeEncode_safeDecode s.variant hw]

/-- Settles O18: what SENC writes is well formed, and R is 254 in V0. -/
theorem sencWritesNoForbiddenByte : Obligations.SencWritesNoForbiddenByte := by
  intro s t h hok k hk
  obtain ⟨hpos, hle⟩ := safeByte_safeEncode s.variant s.value.toNat hk
  rw [exec_senc_safe h (exec_senc_encodable_of_ok h hok), lane_eq_safeByte]
  refine ⟨Nat.ne_of_gt hpos, fun hv0 => Nat.ne_of_lt (hle.trans_lt ?_)⟩
  rw [hv0]
  decide

/-- Settles O19: the wire order of two encodings is the order of the values. -/
theorem sencKeepsTheOrderOfValues : Obligations.SencKeepsTheOrderOfValues := by
  intro s t s' t' hvar hlt hv h h'
  rw [radixOf_eq_radix] at hv
  rw [wireOrder_eq_safeWireValue, wireOrder_eq_safeWireValue, exec_senc_safe h (hlt.trans hv),
    exec_senc_safe h' (by rwa [hvar]), hvar]
  exact safeWireValue_safeEncode_lt s.variant hlt hv

/-- Settles O20: CONV computes the minimal base-R digits of the value; below R^4 they are, padded, the digits SENC writes, and
from R^4 on there are five. -/
theorem sencAgreesWithConv : Obligations.SencAgreesWithConv := by
  intro s c hlen hfrom hto hin
  rw [radixOf_eq_radix] at hto
  obtain ⟨t, ht⟩ := exec_next .senc s
  obtain ⟨hfits, hconv⟩ := execConv_bigEndian hlen hin hfrom hto
  refine ⟨t, _, ht, hconv, rfl, ?_⟩
  rw [radixOf_eq_radix, State.succeedOut_outLen, outLen_toNat hfits, output_eq_outputBytes,
    State.outputBytes_succeedOut hfits]
  refine ⟨fun hv => ?_, fun hv => ?_⟩
  · cases ht.symm.trans (execSenc_encodable hv)
    exact ⟨rfl, (minimalDigits_radix_length_le _ _).mpr hv,
      fun k hk => (minimalDigits_padded_eq_safeEncode s.variant hv hk).symm⟩
  · cases ht.symm.trans (execSenc_outOfRange hv)
    exact ⟨rfl, minimalDigits_radix_length_five s.variant hv s.value.isLt⟩

/-- Settles O21: the bound is below 254^4, and R is at least 254. -/
theorem carrierLengthsAreEncodable : Obligations.CarrierLengthsAreEncodable := by
  intro s hv
  have hencodable : s.value.toNat < s.variant.radix ^ 4 :=
    calc s.value.toNat ≤ 8294400 := hv
      _ < 254 ^ 4 := by norm_num
      _ ≤ s.variant.radix ^ 4 := Nat.pow_le_pow_left s.variant.le_radix 4
  exact ⟨_, execSenc_encodable hencodable, rfl⟩

end Sys2Proof.Claims

/-! SUPPORT. The proofs of the escape codec statements (43_escape_codec.md R110 to R117): EENC and EDEC outcome by outcome, the
code table against the rules' formulas, the scan of a sequence of units, and what an encoded payload holds. -/

namespace Sys2Proof.Machine

/-! ### EENC and EDEC, outcome by outcome (R114, R115) -/

theorem execEenc_badLength {s : State} (hn : s.cfg.inCap < s.inLen.toNat) :
    execEenc s = .next (s.failOut .badLength 0) := by
  rw [execEenc, if_pos (s.badLength_iff.mpr hn)]

theorem execEdec_badLength {s : State} (hn : s.cfg.inCap < s.inLen.toNat) :
    execEdec s = .next (s.failOut .badLength 0) := by
  rw [execEdec, if_pos (s.badLength_iff.mpr hn)]

theorem execEdec_decoded {s : State} {o : List Byte} (hn : s.inLen.toNat ≤ s.cfg.inCap)
    (ho : escapeScan s.variant 0 s.inputBytes = .decoded o) : execEdec s = .next (s.succeedOut o) := by
  rw [execEdec_eq hn, ho]

theorem execEdec_malformed {s : State} {p : Nat} (hn : s.inLen.toNat ≤ s.cfg.inCap)
    (hp : escapeScan s.variant 0 s.inputBytes = .malformed p) :
    execEdec s = .next (s.failOut .malformedPayload p) := by
  rw [execEdec_eq hn, hp]

/-- Only an input that scans to its end completes with code 0 (R68, R115). -/
theorem exec_edec_ok {s t : State} (hn : s.inLen.toNat ≤ s.cfg.inCap) (h : exec .edec s = .next t)
    (hok : t.errCode = .ok) : ∃ o, escapeScan s.variant 0 s.inputBytes = .decoded o ∧ t = s.succeedOut o := by
  cases hs : escapeScan s.variant 0 s.inputBytes with
  | decoded o => exact ⟨o, rfl, Host.Outcome.next.inj (h.symm.trans (execEdec_decoded hn hs))⟩
  | malformed p =>
    cases h.symm.trans (execEdec_malformed hn hs)
    cases hok

theorem exec_eenc_outputBytes {s t : State} (hn : s.inLen.toNat ≤ s.cfg.inCap) (h : exec .eenc s = .next t) :
    t.outputBytes = escapeEncode s.variant s.inputBytes := by
  cases h.symm.trans (execEenc_eq hn)
  exact State.outputBytes_succeedOut (escapeEncode_fits hn)

theorem State.outputBytes_length (s : State) : s.outputBytes.length = s.outLen.toNat := Memory.bytes_length _ _

theorem State.outputBytes_getElem? (s : State) {i : Nat} (hi : i < s.outLen.toNat) :
    s.outputBytes[i]? = some (s.outByte i) := by
  have hi' : i < s.outputBytes.length := s.outputBytes_length.symm ▸ hi
  rw [List.getElem?_eq_getElem hi']
  exact congrArg some (Memory.bytes_getElem _ hi')

/-! ### The code table and its inverse (R111 to R113) -/

theorem escapeCode_eq_some_iff {v : Variant} {x c : Byte} :
    escapeCode v x = some c ↔ (x = 0x00 ∧ c = 1) ∨ (x = 0xFE ∧ c = 2) ∨ (v = .v0 ∧ x = 0xFF ∧ c = 3) := by
  cases v <;> grind [escapeCode]

theorem escapeDecode_eq_some_iff {v : Variant} {c b : Byte} :
    escapeDecode v c = some b ↔ (c = 1 ∧ b = 0x00) ∨ (c = 2 ∧ b = 0xFE) ∨ (v = .v0 ∧ c = 3 ∧ b = 0xFF) := by
  cases v <;> grind [escapeDecode]

/-- A byte without a code is no reserved literal of its variant (R112). -/
theorem not_reserved_of_escapeCode_none {v : Variant} {x : Byte} (h : escapeCode v x = none) :
    x ≠ 0x00 ∧ (v = .v0 → x ≠ 0xFF) := by
  cases v <;> grind [escapeCode]

theorem escapeCode_bounds {v : Variant} {x c : Byte} (h : escapeCode v x = some c) : 1 ≤ c.toNat ∧ c.toNat ≤ 3 := by
  rcases escapeCode_eq_some_iff.mp h with ⟨-, rfl⟩ | ⟨-, rfl⟩ | ⟨-, -, rfl⟩ <;> decide

/-! ### What an encoded payload holds (R116) -/

/-- No byte of an encoding is 0x00, and in V0 none is 0xFF (R116, law 3). -/
theorem escapeEncode_holds_no_reserved {v : Variant} {x : List Byte} {b : Byte} (hb : b ∈ escapeEncode v x) :
    b ≠ 0x00 ∧ (v = .v0 → b ≠ 0xFF) := by
  obtain ⟨a, -, hb⟩ := List.mem_flatMap.mp hb
  rw [escapeByte] at hb
  cases hc : escapeCode v a with
  | none =>
    rw [hc, List.mem_singleton] at hb
    exact hb ▸ not_reserved_of_escapeCode_none hc
  | some c =>
    rw [hc, List.mem_pair] at hb
    obtain ⟨hpos, hle⟩ := escapeCode_bounds hc
    rcases hb with rfl | rfl
    · exact ⟨by decide, fun _ => by decide⟩
    · exact ⟨fun h0 => absurd hpos (by rw [h0]; decide), fun _ hff => absurd hle (by rw [hff]; decide)⟩

/-- Every ESC of `y` has a byte after it, and that byte is 1, 2 or 3 (R116, law 3). -/
def EscStartsPairs (y : List Byte) : Prop :=
  ∀ i, y[i]? = some esc → ∃ c, y[i + 1]? = some c ∧ 1 ≤ c.toNat ∧ c.toNat ≤ 3

theorem EscStartsPairs.cons_plain {x : Byte} {y : List Byte} (hx : x ≠ esc) (hy : EscStartsPairs y) :
    EscStartsPairs (x :: y) := by
  intro i hi
  cases i with
  | zero => exact absurd (Option.some.inj hi) hx
  | succ i => exact hy i hi

theorem EscStartsPairs.cons_pair {c : Byte} {y : List Byte} (hpos : 1 ≤ c.toNat) (hle : c.toNat ≤ 3)
    (hy : EscStartsPairs y) : EscStartsPairs (esc :: c :: y) := by
  have hc : c ≠ esc := by
    rintro rfl
    exact absurd hle (by decide)
  intro i hi
  cases i with
  | zero => exact ⟨c, rfl, hpos, hle⟩
  | succ i => exact hy.cons_plain hc i hi

theorem escStartsPairs_escapeEncode (v : Variant) (x : List Byte) : EscStartsPairs (escapeEncode v x) := by
  induction x with
  | nil => exact fun i hi => by simp at hi
  | cons b t ih =>
    rw [escapeEncode_cons, escapeByte]
    cases hc : escapeCode v b with
    | none => exact ih.cons_plain (ne_esc_of_escapeCode_none hc)
    | some c =>
      obtain ⟨hpos, hle⟩ := escapeCode_bounds hc
      exact ih.cons_pair hpos hle

end Sys2Proof.Machine

namespace Sys2Proof.Claims

open Sys2Proof.Machine

/-! ### The rules' formulas and the model's functions -/

theorem escaped_eq_escapeByte (v : Variant) : escaped v = escapeByte v := by
  funext x
  cases v <;> grind [escaped, escapeByte, escapeCode, esc]

theorem flatMap_escaped (v : Variant) (x : List Byte) : x.flatMap (escaped v) = escapeEncode v x := by
  rw [escaped_eq_escapeByte, escapeEncode]

/-- The bytes of E are those that have a code (R111, R112). -/
theorem inE_eq_isSome (v : Variant) (x : Byte) : inE v x = (escapeCode v x).isSome := by
  cases v <;> grind [inE, escapeCode]

/-- Each byte of E makes the encoding one byte longer (R116, law 2). -/
theorem escapeEncode_length (v : Variant) (x : List Byte) :
    (escapeEncode v x).length = x.length + x.countP (inE v) := by
  induction x with
  | nil => rfl
  | cons b t ih =>
    rw [escapeEncode_cons, List.length_append, ih, List.countP_cons, inE_eq_isSome, List.length_cons, escapeByte]
    cases escapeCode v b <;> simp <;> omega

/-! ### Units and bad pairs (R113, R115) -/

/-- A unit is a byte other than ESC, or ESC and a code that the decode map knows. -/
theorem isEscapeUnit_iff {v : Variant} {u : List Byte} {b : Byte} :
    IsEscapeUnit v u b ↔ (u = [b] ∧ b ≠ esc) ∨ ∃ c, u = [esc, c] ∧ escapeDecode v c = some b := by
  simp only [IsEscapeUnit, escapeDecode_eq_some_iff]
  grind [esc]

theorem isEscapeUnit_plain {v : Variant} {x : Byte} (hx : x ≠ esc) : IsEscapeUnit v [x] x := .inl ⟨rfl, hx⟩

theorem isEscapeUnit_pair_iff {v : Variant} {c b : Byte} :
    IsEscapeUnit v [esc, c] b ↔ escapeDecode v c = some b := by
  simp [isEscapeUnit_iff]

theorem escapeDecode_eq_none_iff {v : Variant} {c : Byte} :
    escapeDecode v c = none ↔ ∀ b, ¬ IsEscapeUnit v [esc, c] b := by
  simp only [isEscapeUnit_pair_iff, Option.eq_none_iff_forall_ne_some, ne_eq]

theorem EscapeUnits.nil (v : Variant) : EscapeUnits v [] [] := ⟨by simp, rfl⟩

theorem EscapeUnits.cons {v : Variant} {u y : List Byte} {b : Byte} {ps : List (List Byte × Byte)}
    (hu : IsEscapeUnit v u b) (hy : EscapeUnits v ps y) : EscapeUnits v ((u, b) :: ps) (u ++ y) := by
  obtain ⟨hps, rfl⟩ := hy
  exact ⟨List.forall_mem_cons.mpr ⟨hu, hps⟩, rfl⟩

/-- Every byte sequence is units up to its end or up to a bad pair (R115). -/
theorem exists_leading_escapeUnits (v : Variant) (y : List Byte) :
    ∃ ps z tail, EscapeUnits v ps z ∧ y = z ++ tail ∧ (tail = [] ∨ BadPair v tail) := by
  induction y using List.twoStepInduction with
  | nil => exact ⟨[], [], [], .nil v, rfl, .inl rfl⟩
  | singleton x =>
    by_cases hx : x = esc
    · exact ⟨[], [], [x], .nil v, rfl, .inr (.inl (by rw [hx]; rfl))⟩
    · exact ⟨_, _, [], .cons (isEscapeUnit_plain hx) (.nil v), rfl, .inl rfl⟩
  | cons_cons x c t ih2 ih1 =>
    by_cases hx : x = esc
    · subst x
      cases hd : escapeDecode v c with
      | none => exact ⟨[], [], _, .nil v, rfl, .inr (.inr ⟨c, t, rfl, escapeDecode_eq_none_iff.mp hd⟩)⟩
      | some b =>
        obtain ⟨ps, z, tail, hz, rfl, htail⟩ := ih2
        exact ⟨_, _, tail, hz.cons (isEscapeUnit_pair_iff.mpr hd), rfl, htail⟩
    · obtain ⟨ps, z, tail, hz, hy, htail⟩ := ih1 c
      exact ⟨_, _, tail, hz.cons (isEscapeUnit_plain hx), by rw [hy]; rfl, htail⟩

/-! ### The scan of units (R115) -/

theorem escapeScan_unit {v : Variant} {u : List Byte} {b : Byte} (hu : IsEscapeUnit v u b) (i : Nat) (t : List Byte) :
    escapeScan v i (u ++ t) = (escapeScan v (i + u.length) t).prepend b := by
  rcases isEscapeUnit_iff.mp hu with ⟨rfl, hb⟩ | ⟨c, rfl, hd⟩
  · exact escapeScan_plain hb i t
  · exact escapeScan_pair hd i t

theorem escapeScan_badPair {v : Variant} {tail : List Byte} (hb : BadPair v tail) (i : Nat) :
    escapeScan v i tail = .malformed i := by
  rcases hb with rfl | ⟨c, rest, rfl, hbad⟩
  · exact escapeScan_last_esc v i
  · exact escapeScan_bad_code (escapeDecode_eq_none_iff.mpr hbad) i rest

/-- The scan passes units one by one, and puts what they stand for before the rest. -/
theorem escapeScan_units {v : Variant} {ps : List (List Byte × Byte)} {y : List Byte} (hy : EscapeUnits v ps y) (i : Nat)
    (t : List Byte) :
    escapeScan v i (y ++ t) = (ps.map Prod.snd).foldr Scan.prepend (escapeScan v (i + y.length) t) := by
  obtain ⟨hps, rfl⟩ := hy
  induction ps generalizing i with
  | nil => rfl
  | cons p ps ih =>
    obtain ⟨hp, hps⟩ := List.forall_mem_cons.mp hps
    rw [List.map_cons, List.flatten_cons, List.append_assoc, escapeScan_unit hp, ih _ hps, List.map_cons,
      List.foldr_cons, List.length_append, Nat.add_assoc]

theorem foldr_prepend_decoded (o o' : List Byte) : o.foldr Scan.prepend (.decoded o') = .decoded (o ++ o') := by
  induction o with
  | nil => rfl
  | cons b o ih => rw [List.foldr_cons, ih]; rfl

theorem foldr_prepend_malformed (o : List Byte) (p : Nat) : o.foldr Scan.prepend (.malformed p) = .malformed p := by
  induction o with
  | nil => rfl
  | cons b o ih => rw [List.foldr_cons, ih]; rfl

/-- Units up to the end of the input decode to what they stand for. -/
theorem escapeScan_of_units {v : Variant} {ps : List (List Byte × Byte)} {y : List Byte} (hy : EscapeUnits v ps y)
    (i : Nat) : escapeScan v i y = .decoded (ps.map Prod.snd) := by
  have h := escapeScan_units hy i []
  rwa [List.append_nil, escapeScan, foldr_prepend_decoded, List.append_nil] at h

/-- Units up to a bad pair are malformed at the pair's ESC. -/
theorem escapeScan_of_units_badPair {v : Variant} {ps : List (List Byte × Byte)} {y tail : List Byte}
    (hy : EscapeUnits v ps y) (hb : BadPair v tail) (i : Nat) :
    escapeScan v i (y ++ tail) = .malformed (i + y.length) := by
  rw [escapeScan_units hy, escapeScan_badPair hb, foldr_prepend_malformed]

/-! ### The statements -/

/-- Settles O22: the length check is EENC's only one, and an encoding is at most twice as long as its payload. -/
theorem eencFollowsItsRule : Obligations.EencFollowsItsRule := by
  refine ⟨decode_encode .eenc, fun s => ?_⟩
  obtain ⟨t, h⟩ := exec_next .eenc s
  refine ⟨t, h, fun hn => ?_, fun hn => ?_⟩
  · cases h.symm.trans (execEenc_badLength hn)
    exact failedOut_failOut s (by decide) 0
  · have hlen := escapeEncode_length_le s.variant s.inputBytes
    rw [← exec_eenc_outputBytes hn h, State.outputBytes_length, State.inputBytes_length] at hlen
    cases h.symm.trans (execEenc_eq hn)
    rw [flatMap_escaped]
    exact ⟨wroteOut_succeedOut (escapeEncode_fits hn), hlen⟩

/-- Settles O23: the scan passes units and stops at a bad pair, and a sequence that is not all units meets one. -/
theorem edecFollowsItsRule : Obligations.EdecFollowsItsRule := by
  refine ⟨decode_encode .edec, fun s => ?_, fun v y => ?_⟩
  · obtain ⟨t, h⟩ := exec_next .edec s
    refine ⟨t, h, fun hn => ?_, fun hn => ⟨fun ps hps => ?_, fun ps y tail hps hin hbad => ?_⟩⟩
    · cases h.symm.trans (execEdec_badLength hn)
      exact failedOut_failOut s (by decide) 0
    · have hscan := escapeScan_of_units hps 0
      cases h.symm.trans (execEdec_decoded hn hscan)
      exact wroteOut_succeedOut (escapeScan_fits hn hscan)
    · have hscan := escapeScan_of_units_badPair hps hbad 0
      rw [Nat.zero_add, ← hin] at hscan
      cases h.symm.trans (execEdec_malformed hn hscan)
      exact failedOut_failOut s (by decide) y.length
  · obtain ⟨ps, z, tail, hz, rfl, rfl | hbad⟩ := exists_leading_escapeUnits v y
    · exact .inl ⟨ps, by rwa [List.append_nil]⟩
    · exact .inr ⟨ps, z, tail, hz, rfl, hbad⟩

/-- Settles O24: an encoding scans to its payload. -/
theorem eencThenEdecReturnsThePayload : Obligations.EencThenEdecReturnsThePayload := by
  intro s t s' hn h hvar _ hn' hin
  rw [input_eq_inputBytes, output_eq_outputBytes, exec_eenc_outputBytes hn h] at hin
  have hscan : escapeScan s'.variant 0 s'.inputBytes = .decoded s.inputBytes := by
    rw [hin, hvar]
    exact escapeScan_escapeEncode s.variant s.inputBytes 0
  exact ⟨_, execEdec_decoded hn' hscan, rfl, State.outputBytes_succeedOut (escapeScan_fits hn' hscan)⟩

/-- Settles O25: the length of an encoding, as OUT_LEN holds it. -/
theorem eencLengthCountsTheEscapedBytes : Obligations.EencLengthCountsTheEscapedBytes := by
  intro s t hn h
  rw [← State.outputBytes_length, exec_eenc_outputBytes hn h, escapeEncode_length, State.inputBytes_length,
    input_eq_inputBytes]

/-- Settles O26: what an encoding holds, read byte by byte from OUT. -/
theorem eencOutputHoldsNoReservedLiteral : Obligations.EencOutputHoldsNoReservedLiteral := by
  intro s t hn h
  have hout := exec_eenc_outputBytes hn h
  refine ⟨fun x hx => ?_, fun i hi hesc => ?_⟩
  · rw [output_eq_outputBytes, hout] at hx
    exact escapeEncode_holds_no_reserved hx
  · have hpairs : EscStartsPairs t.outputBytes := hout ▸ escStartsPairs_escapeEncode s.variant s.inputBytes
    obtain ⟨c, hc, hbounds⟩ := hpairs i ((t.outputBytes_getElem? hi).trans (congrArg some hesc))
    have hnext : i + 1 < t.outLen.toNat := t.outputBytes_length ▸ (List.getElem?_eq_some_iff.mp hc).1
    rw [t.outputBytes_getElem? hnext] at hc
    cases hc
    exact ⟨hnext, hbounds⟩

/-- Settles O27: the encoding of a concatenation, for three runs of EENC. -/
theorem eencOfAConcatenation : Obligations.EencOfAConcatenation := by
  intro s t sa ta sb tb hn hna hnb hva hvb hin h ha hb
  simp only [input_eq_inputBytes] at hin
  simp only [output_eq_outputBytes]
  rw [exec_eenc_outputBytes hn h, exec_eenc_outputBytes hna ha, exec_eenc_outputBytes hnb hb, hva, hvb, hin,
    escapeEncode_append]

/-- Settles O28: the scan of the whole splits into scans of the pieces, and the index the second starts from does not change
what it decodes. -/
theorem edecInPiecesCutBetweenPairs : Obligations.EdecInPiecesCutBetweenPairs := by
  intro s t sa sb hn hna hnb hva hvb h hok hin
  obtain ⟨o, hscan, rfl⟩ := exec_edec_ok hn h hok
  have hfits := escapeScan_fits hn hscan
  simp only [input_eq_inputBytes] at hin ⊢
  rw [hin] at hscan
  obtain ⟨hplain, hesc⟩ := escapeScan_append 0 hscan
  refine ⟨fun hlast => ?_, fun hlast => ?_⟩
  · obtain ⟨oa, ob, ha, hb, rfl⟩ := hplain hlast
    rw [← hva] at ha
    replace hb := escapeScan_decoded_index 0 hb
    rw [← hvb] at hb
    refine ⟨_, _, execEdec_decoded hna ha, execEdec_decoded hnb hb, rfl, rfl, ?_⟩
    simp only [output_eq_outputBytes]
    rw [State.outputBytes_succeedOut hfits, State.outputBytes_succeedOut (escapeScan_fits hna ha),
      State.outputBytes_succeedOut (escapeScan_fits hnb hb)]
  · have ha := hesc hlast
    rw [← hva, sa.inputBytes_length, Nat.zero_add] at ha
    exact ⟨_, execEdec_malformed hna ha, failedOut_failOut sa (by decide) _⟩

end Sys2Proof.Claims

/-! SUPPORT. The proof of the power loss statement (60_exceptions.md R142): a block without power leaves that condition by
the assertion of reset only. -/

namespace Sys2Proof.Machine

/-- A step out of the power lost condition is the assertion of reset: accesses and commands need a ready block, and every
other event keeps the condition (R142, U9; entry 15). -/
theorem step_leaves_powerLost {s t : State} (hlost : s.phase = .powerLost) (h : step s = .next t)
    (hleft : t.phase ≠ .powerLost) : s.nextInput = .assertReset ∧ t = s.turn.assertReset := by
  have hunready : s.phase ≠ .ready := by simp [hlost]
  cases step_cases h with
  | read off size he hp => exact absurd hp hunready
  | write off d he hp => exact absurd hp hunready
  | idle => exact absurd hlost hleft
  | command w i he hp => exact absurd hp hunready
  | illegal w r he hp => exact absurd hp hunready
  | assertReset he => exact ⟨he, rfl⟩
  | releaseReset => exact absurd (by simp [hlost]) hleft
  | powerLoss => exact absurd s.turn.losePower_phase hleft

end Sys2Proof.Machine

namespace Sys2Proof.Claims

open Sys2Proof.Machine

/-- The assertion of reset leaves what R41 and R149 list, whatever the state before. -/
theorem resetTo_assertReset (s : State) : ResetTo s s.turn.assertReset .inReset := by
  obtain ⟨hctrl, hstatus⟩ := flagWords_toResetValues s.turn
  exact ⟨rfl, rfl, hctrl, hstatus, rfl, rfl, rfl, rfl, rfl, rfl, rfl, rfl, rfl, fun _ => rfl, fun _ => rfl, rfl, rfl, rfl⟩

/-- Settles O56: a loss of power is never refused, and the one step out of it is a hard reset. -/
theorem powerLossWaitsForAHardReset : Obligations.PowerLossWaitsForAHardReset := by
  refine ⟨fun s he => ⟨_, step_eq he, s.turn.losePower_phase⟩, fun s t hlost h hleft => ?_⟩
  obtain ⟨he, rfl⟩ := step_leaves_powerLost hlost h hleft
  exact ⟨he, resetTo_assertReset s⟩

end Sys2Proof.Claims

/-! SUPPORT. The proofs of the reset statements (70_reset_and_hazards.md R149 to R152): which steps the block refuses, what a
reset leaves and holds, and what can end a running command. -/

namespace Sys2Proof.Machine

/-! ### Refused accesses (R149, R142; U8, U9) -/

/-- A bus access: the events that need a ready block. -/
def Input.IsAccess (e : Input) : Prop := (∃ off size, e = .read off size) ∨ ∃ off d, e = .write off d

theorem busAccess_refused {s : State} (hp : s.phase ≠ .ready) (done : State) : ∃ r, busAccess s done = .refused r := by
  unfold busAccess
  split
  · exact absurd ‹_› hp
  · exact ⟨_, rfl⟩
  · exact ⟨_, rfl⟩

theorem step_access_refused {s : State} (hp : s.phase ≠ .ready) (ha : s.nextInput.IsAccess) :
    ∃ r, step s = .refused r := by
  rcases ha with ⟨off, size, he⟩ | ⟨off, d, he⟩
  · rw [step_eq he]
    exact busAccess_refused (s := s.turn) hp _
  · rw [step_eq he]
    exact busAccess_refused (s := s.turn) hp _

/-- Of the events, only the accesses are refused outside the ready phase: the engine then takes no step (entry 11). -/
theorem step_next_of_not_access {s : State} (hp : s.phase ≠ .ready) (ha : ¬ s.nextInput.IsAccess) :
    ∃ t, step s = .next t := by
  cases he : s.nextInput with
  | read off size => exact absurd (.inl ⟨off, size, he⟩) ha
  | write off d => exact absurd (.inr ⟨off, d, he⟩) ha
  | engine => exact ⟨_, step_engine_idle he (.inl hp)⟩
  | assertReset => exact ⟨_, step_eq he⟩
  | releaseReset => exact ⟨_, step_eq he⟩
  | powerLoss => exact ⟨_, step_eq he⟩

/-- The refused steps are the accesses outside the ready phase. -/
theorem step_refused_iff {s : State} : (∃ r, step s = .refused r) ↔ s.phase ≠ .ready ∧ s.nextInput.IsAccess := by
  refine ⟨fun ⟨r, hr⟩ => ?_, fun ⟨hp, ha⟩ => step_access_refused hp ha⟩
  have hnext : ¬ ∃ t, step s = .next t := fun ⟨t, ht⟩ => nomatch hr.symm.trans ht
  obtain ⟨hp, -⟩ := (step_total s).resolve_left hnext
  exact ⟨hp, by_contra fun ha => hnext (step_next_of_not_access hp ha)⟩

/-! ### Steps while reset is asserted (R149) -/

theorem State.releaseReset_of_inReset {s : State} (hp : s.phase = .inReset) :
    s.releaseReset = { s with phase := .ready } := by
  rw [State.releaseReset, hp]

theorem State.assertReset_atResetValues (s : State) : s.assertReset.atResetValues :=
  (State.toResetValues_inv { s with phase := .inReset }).heldInReset rfl

/-- What a step can be while reset is asserted: no access and no command. -/
theorem step_inReset_cases {s t : State} (hp : s.phase = .inReset) (h : step s = .next t) :
    (s.nextInput = .engine ∧ t = s.turn) ∨ (s.nextInput = .assertReset ∧ t = s.turn.assertReset) ∨
    (s.nextInput = .releaseReset ∧ t = { s.turn with phase := .ready }) ∨ s.nextInput = .powerLoss := by
  have hunready : s.phase ≠ .ready := by simp [hp]
  cases step_cases h with
  | read off size he hr => exact absurd hr hunready
  | write off d he hr => exact absurd hr hunready
  | idle he => exact .inl ⟨he, rfl⟩
  | command w i he hr => exact absurd hr hunready
  | illegal w r he hr => exact absurd hr hunready
  | assertReset he => exact .inr (.inl ⟨he, rfl⟩)
  | releaseReset he => exact .inr (.inr (.inl ⟨he, State.releaseReset_of_inReset (s := s.turn) hp⟩))
  | powerLoss he => exact .inr (.inr (.inr he))

/-! ### The end of a command (R71, R151) -/

/-- Of the writes, only a soft reset ends a running command. -/
theorem WriteEffect.busy_ends {s t : State} {off : Offset} {d : BusData} (h : WriteEffect s off d t)
    (hb : s.busy = true) (ht : t.busy = false) :
    t = s.toResetValues ∧ ∃ w, off = 0x004 ∧ d = .word w ∧ w.getLsbD 31 = true := by
  cases h with
  | softReset w ho hd h31 => exact ⟨rfl, w, ho, hd, h31⟩
  | issue w => cases ht
  | _ => exact absurd (hb.symm.trans ht) (by decide)

end Sys2Proof.Machine

namespace Sys2Proof.Claims

open Sys2Proof.Machine

/-! ### The statements -/

/-- Settles O32: every step is a next state or the refusal of an access, and `Fault` has no value. -/
theorem stepRefusesOnlyAccessesInResetOrWithoutPower : Obligations.StepRefusesOnlyAccessesInResetOrWithoutPower := by
  refine fun s => ⟨step_refused_iff, nofun, fun hr => ?_⟩
  rcases step_total s with hnext | ⟨-, hrefused⟩
  · exact hnext
  · exact absurd hrefused hr

/-- Settles O45: the soft reset is not among the writes a busy block drops. -/
theorem softResetResetsEverything : Obligations.SoftResetResetsEverything := fun _ _ hp h31 he =>
  ⟨_, step_softReset hp h31 he, resetTo_softReset hp, rfl⟩

/-- Settles O46: neither event of the reset input is refused, and the release moves the phase alone. -/
theorem hardResetResetsEverything : Obligations.HardResetResetsEverything := by
  refine ⟨fun s he => ⟨_, step_eq he, resetTo_assertReset s⟩, fun s hp he => ?_⟩
  rw [step_eq he, applyInput, State.releaseReset_of_inReset (s := s.turn) hp]
  rfl

/-- Settles O47: an engine's turn and the release keep the values that the invariant holds in reset, and a further assertion
sets them again. -/
theorem resetHoldsTheBlock : Obligations.ResetHoldsTheBlock := by
  intro s t hi hp h hpower
  have hheld : s.atResetValues := hi.heldInReset hp
  rcases step_inReset_cases hp h with ⟨-, rfl⟩ | ⟨-, rfl⟩ | ⟨he, rfl⟩ | he
  · exact ⟨hheld, fun _ => hp⟩
  · exact ⟨s.turn.assertReset_atResetValues, fun _ => rfl⟩
  · exact ⟨hheld, fun hne => absurd he hne⟩
  · exact absurd he hpower

/-- Settles O48: of the events that make PEND invalid, the engine's turn sets DONE and each reset clears DONE and IRQ_EN. -/
theorem onlyCompletionOrResetEndsACommand : Obligations.OnlyCompletionOrResetEndsACommand := by
  intro s t hp hb h hidle
  have hchange : t.busy ≠ s.busy := by rw [hb, hidle]; decide
  cases step_cases h with
  | read off size => exact absurd (s.turn.busRead_busy off size) hchange
  | write off d he =>
    obtain ⟨u, r, hu, hw⟩ := s.turn.busWrite_effect off d
    rw [hw] at hidle ⊢
    obtain ⟨rfl, w, rfl, rfl, h31⟩ := hu.busy_ends hb hidle
    exact .inr (.inl ⟨.inr ⟨w, he, h31⟩, rfl, rfl⟩)
  | idle => exact absurd rfl hchange
  | command w i he hr hw hd t ht => exact .inl ⟨he, exec_done ht⟩
  | illegal w r he => exact .inl ⟨he, rfl⟩
  | assertReset he => exact .inr (.inl ⟨.inl he, rfl, rfl⟩)
  | releaseReset => exact absurd (congrArg Option.isSome s.turn.releaseReset_pend) hchange
  | powerLoss he => exact .inr (.inr he)

end Sys2Proof.Claims
